-- ==== Sys2Proof/Word.lean ====
section
/-!
DEFINITION. The two word types of the TAE: a byte (every memory element, R56) and the 32-bit word of the
command and response ports (R80, R93).
-/

namespace Sys2Proof

/-- One pixel, one table entry, one transport id or value (R11, R56). -/
abbrev Byte := BitVec 8

/-- A command word (R80) or the data of a response (R93). -/
abbrev Word := BitVec 32

end Sys2Proof
end

