-- ==== Sys2Proof/Config.lean ====
section
/-!
DEFINITION. What is fixed for one machine: the parameters of R6 that a model may change, and the free values
(constants without a body, so no proof can see what they are) for R7's open parameters and for the two
outcomes the spec leaves open (R64, R242).
-/

namespace Sys2Proof

/-- The three tables of a tile in the order they are sent (R95, R170). -/
inductive TableKind where
  | onoff
  | blink
  | pwm
  deriving DecidableEq, Repr, Inhabited

/-- One `write_register` call of `PRE` (R7): register id and value. -/
structure RegWrite where
  id : Byte
  v : Byte
  deriving DecidableEq, Repr, Inhabited

/-- The answer of one transport call (R7, R11). -/
inductive TxAnswer where
  | ok
  | fail
  deriving DecidableEq, Repr, Inhabited

namespace Config

/-- `BLINK_LEN`, the bytes of the blink table (R6, D14). DESIGN CHOICE of the spec, log 13. -/
def blinkLen : Nat := 24

/-- `SLOT_BASE(kind)`, the slot id of entry 0 of a table (R6, D16). DESIGN CHOICE of the spec, log 13. -/
def slotBase : TableKind → Nat
  | .onoff => 0
  | .blink => 0
  | .pwm => 0

/-- FREE VALUE: the platform's `PRE(kind, t)` where the state's table has no row for it (R7, D15, log 5). -/
opaque pre : TableKind → BitVec 16 → List RegWrite

/-- FREE VALUE: the transport's answer to the call of the given number, where the environment's list of
answers has run out (R7, D38, log 4). -/
opaque txAnswer : Nat → TxAnswer

/-- FREE VALUE: which of several bytes a canvas read sees that races with a host write; the arguments are the
number of the command and the canvas index (R64, D32, log 8). -/
opaque raceChoice : Nat → Nat → Nat

/-- FREE VALUE: how many transport calls of a command a reset inside it lets through; the argument is the
number of the command (R242, D34, log 9). -/
opaque resetCut : Nat → Nat

end Config

end Sys2Proof
end

