-- ==== Sys2Proof/Syntax.lean ====
section
/-!
DEFINITION. The fifteen commands of TAE-CMD v1 (R89), one constructor per row of the opcode table, with the
operands of R100 in its order. Operand fields are natural numbers (R8, R88); `WellFormed.lean` says which
values their fields hold.
-/

namespace Sys2Proof

inductive Instr where
  /-- `NOP`, format Z (R190). -/
  | nop
  /-- `RST`, format Z (R191). -/
  | rst
  /-- `MAP x, y`, format XY (R119). -/
  | map (x y : Nat)
  /-- `TCLR`, format Z (R130). -/
  | tclr
  /-- `TPIX x, y, v`, format P (R131). -/
  | tpix (x y v : Nat)
  /-- `ENCODE`, format Z (R132). -/
  | encode
  /-- `CANVAS w, h`, format C (R151). -/
  | canvas (w h : Nat)
  /-- `SPLIT`, format Z (R154). -/
  | split
  /-- `LOADT t`, format T (R157). -/
  | loadt (t : Nat)
  /-- `EMIT t, b`, format B (R173); `b` is `use_brightness`, 1 true (R86). -/
  | emit (t : Nat) (b : Bool)
  /-- `RENDER b, clip`, format B (R176); `clip` is reserved and ignored (R177). -/
  | render (b : Bool) (clip : Nat)
  /-- `RDCR n`, format I (R193). -/
  | rdcr (n : Nat)
  /-- `RDTP x, y`, format XY (R194). -/
  | rdtp (x y : Nat)
  /-- `RDOO i`, format I (R195). -/
  | rdoo (i : Nat)
  /-- `RDPW i`, format I (R196). -/
  | rdpw (i : Nat)
  deriving DecidableEq, Repr

/-- The mnemonic of R89. -/
def Instr.mnemonic : Instr → String
  | .nop => "NOP"
  | .rst => "RST"
  | .map _ _ => "MAP"
  | .tclr => "TCLR"
  | .tpix _ _ _ => "TPIX"
  | .encode => "ENCODE"
  | .canvas _ _ => "CANVAS"
  | .split => "SPLIT"
  | .loadt _ => "LOADT"
  | .emit _ _ => "EMIT"
  | .render _ _ => "RENDER"
  | .rdcr _ => "RDCR"
  | .rdtp _ _ => "RDTP"
  | .rdoo _ => "RDOO"
  | .rdpw _ => "RDPW"

end Sys2Proof
end

