-- ==== Sys2Proof/WellFormed.lean ====
section
/-!
DEFINITION. Which commands can be written as a word: every operand fits its field (R82 to R87; "An operand
outside the range of its field is an assembly error, not a command", R100). A value that fits its field and
that the command rejects (`x = 24`, `i = 200`) is well formed and faults when executed (R100).
-/

namespace Sys2Proof

def Instr.wellFormed : Instr → Bool
  | .nop => true
  | .rst => true
  | .map x y => decide (x < 32) && decide (y < 8)
  | .tclr => true
  | .tpix x y v => decide (x < 32) && decide (y < 8) && decide (v < 256)
  | .encode => true
  | .canvas w h => decide (w < 65536) && decide (h < 256)
  | .split => true
  | .loadt t => decide (t < 65536)
  | .emit t _ => decide (t < 65536)
  | .render _ clip => decide (clip < 65536)
  | .rdcr n => decide (n < 256)
  | .rdtp x y => decide (x < 32) && decide (y < 8)
  | .rdoo i => decide (i < 256)
  | .rdpw i => decide (i < 256)

end Sys2Proof
end

