-- ==== Sys2Proof/Decode.lean ====
section
/-!
DEFINITION. The decoder, total on every 32-bit command word and rejecting by name (R80 to R90), the encoder
written from the same formats, and R89's table of match and mask words. A word reaches the command port whole,
so no byte order arises (R56).
-/

namespace Sys2Proof

/-- Why a word is not a command (R90). -/
inductive Illegal where
  /-- Bits 31:24 hold none of the fifteen opcodes. -/
  | unassignedOpcode
  /-- The opcode is assigned and a bit that its format marks `0` is 1. -/
  | reservedBit
  deriving DecidableEq, Repr

/-- What decoding a word gives. -/
inductive Decoded where
  | command (i : Instr)
  | illegal (e : Illegal)
  deriving DecidableEq, Repr

/-- `v[hi:lo]` of R8, as a natural number. -/
def field (w : Word) (hi lo : Nat) : Nat :=
  w.toNat / 2 ^ lo % 2 ^ (hi + 1 - lo)

/-- The command, unless a reserved bit is 1 (R90). -/
def ifReservedZero (zero : Bool) (i : Instr) : Decoded :=
  match zero with
  | true => .command i
  | false => .illegal .reservedBit

/-- The bits that format Z marks `0` are all 0 (R81). -/
def zeroZ (w : Word) : Bool := field w 23 0 == 0

/-- The bits that format XY marks `0` are all 0 (R82). -/
def zeroXY (w : Word) : Bool := field w 23 21 == 0 && field w 15 11 == 0 && field w 7 0 == 0

/-- The bits that format P marks `0` are all 0 (R83). -/
def zeroP (w : Word) : Bool := field w 23 21 == 0 && field w 15 11 == 0

/-- The bits that format T marks `0` are all 0 (R85). -/
def zeroT (w : Word) : Bool := field w 23 16 == 0

/-- The bits that format B marks `0` are all 0 (R86). -/
def zeroB (w : Word) : Bool := field w 23 17 == 0

/-- The bits that format I marks `0` are all 0 (R87). -/
def zeroI (w : Word) : Bool := field w 23 8 == 0

/-- The decoder: opcode (R80, R89), reserved bits (R90), operands (R88). `RDCR` of a reserved register is
decoded here and faults when executed (R193), log 18. -/
def decode (w : Word) : Decoded :=
  match field w 31 24 with
  | 0x00 => ifReservedZero (zeroZ w) .nop
  | 0x01 => ifReservedZero (zeroZ w) .rst
  | 0x10 => ifReservedZero (zeroXY w) (.map (field w 20 16) (field w 10 8))
  | 0x20 => ifReservedZero (zeroZ w) .tclr
  | 0x21 => ifReservedZero (zeroP w) (.tpix (field w 20 16) (field w 10 8) (field w 7 0))
  | 0x22 => ifReservedZero (zeroZ w) .encode
  | 0x30 => .command (.canvas (field w 23 8) (field w 7 0))
  | 0x31 => ifReservedZero (zeroZ w) .split
  | 0x32 => ifReservedZero (zeroT w) (.loadt (field w 15 0))
  | 0x40 => ifReservedZero (zeroB w) (.emit (field w 15 0) (field w 16 16 == 1))
  | 0x41 => ifReservedZero (zeroB w) (.render (field w 16 16 == 1) (field w 15 0))
  | 0x50 => ifReservedZero (zeroI w) (.rdcr (field w 7 0))
  | 0x51 => ifReservedZero (zeroXY w) (.rdtp (field w 20 16) (field w 10 8))
  | 0x52 => ifReservedZero (zeroI w) (.rdoo (field w 7 0))
  | 0x53 => ifReservedZero (zeroI w) (.rdpw (field w 7 0))
  | _ => .illegal .unassignedOpcode

/-- A command word from its opcode and its operand bits 23:0 (R80). -/
def assemble (opcode operands : Nat) : Word :=
  BitVec.ofNat 32 (opcode * 2 ^ 24 + operands)

/-- The encoder: each operand at the place its format gives it (R81 to R88). -/
def encode : Instr → Word
  | .nop => assemble 0x00 0
  | .rst => assemble 0x01 0
  | .map x y => assemble 0x10 (x * 2 ^ 16 + y * 2 ^ 8)
  | .tclr => assemble 0x20 0
  | .tpix x y v => assemble 0x21 (x * 2 ^ 16 + y * 2 ^ 8 + v)
  | .encode => assemble 0x22 0
  | .canvas w h => assemble 0x30 (w * 2 ^ 8 + h)
  | .split => assemble 0x31 0
  | .loadt t => assemble 0x32 t
  | .emit t b => assemble 0x40 (b.toNat * 2 ^ 16 + t)
  | .render b clip => assemble 0x41 (b.toNat * 2 ^ 16 + clip)
  | .rdcr n => assemble 0x50 n
  | .rdtp x y => assemble 0x51 (x * 2 ^ 16 + y * 2 ^ 8)
  | .rdoo i => assemble 0x52 i
  | .rdpw i => assemble 0x53 i

/-- One row of R89's table: a word `c` selects the row when `c & mask = match`. -/
structure OpcodeRow where
  mnemonic : String
  matchBits : Word
  mask : Word
  deriving DecidableEq, Repr

/-- R89's table, in its order. -/
def opcodeTable : List OpcodeRow :=
  [⟨"NOP", 0x00000000#32, 0xFFFFFFFF#32⟩,
   ⟨"RST", 0x01000000#32, 0xFFFFFFFF#32⟩,
   ⟨"MAP", 0x10000000#32, 0xFFE0F8FF#32⟩,
   ⟨"TCLR", 0x20000000#32, 0xFFFFFFFF#32⟩,
   ⟨"TPIX", 0x21000000#32, 0xFFE0F800#32⟩,
   ⟨"ENCODE", 0x22000000#32, 0xFFFFFFFF#32⟩,
   ⟨"CANVAS", 0x30000000#32, 0xFF000000#32⟩,
   ⟨"SPLIT", 0x31000000#32, 0xFFFFFFFF#32⟩,
   ⟨"LOADT", 0x32000000#32, 0xFFFF0000#32⟩,
   ⟨"EMIT", 0x40000000#32, 0xFFFE0000#32⟩,
   ⟨"RENDER", 0x41000000#32, 0xFFFE0000#32⟩,
   ⟨"RDCR", 0x50000000#32, 0xFFFFFF00#32⟩,
   ⟨"RDTP", 0x51000000#32, 0xFFE0F8FF#32⟩,
   ⟨"RDOO", 0x52000000#32, 0xFFFFFF00#32⟩,
   ⟨"RDPW", 0x53000000#32, 0xFFFFFF00#32⟩]

/-- A word selects a row (R89). -/
def OpcodeRow.selects (r : OpcodeRow) (w : Word) : Bool := w &&& r.mask == r.matchBits

/-- The word the host gives as a number, cut to the bits the table counts. -/
def tableWord (nbits w : Nat) : Word := BitVec.ofNat 32 (w % 2 ^ nbits)

/-- What the decoder reads from a word of the opcode table. -/
def decodeTableWord (nbits w : Nat) : Option Instr :=
  match decode (tableWord nbits w) with
  | .command i => some i
  | .illegal _ => none

end Sys2Proof
end

