-- ==== Sys2Proof/Machine/State.lean ====
section
/-!
DEFINITION. The state as plain data: the TAE's registers and buffers (file 10 of the spec), and the parties
around it, which R32 calls environment (the canvas memory, the ports, the transport). `State.reset` is the
machine right after reset (R34).
-/

namespace Sys2Proof.Machine

/-- The four fault kinds (R210). Every one of them is a response of a machine that goes on (R221). -/
inductive FaultKind where
  | constructionError
  | boundsViolation
  | transportFailure
  | illegalCommand
  deriving DecidableEq, Repr

/-- The code of a response (R93). Codes 5 to 15 are never produced (U10). -/
inductive RespCode where
  | ok
  | raised (k : FaultKind)
  deriving DecidableEq, Repr

/-- One response: a 4-bit code and 32 bits of data (R93). -/
structure Response where
  code : RespCode
  data : Word
  deriving DecidableEq, Repr

/-- One transport call (R11, R99). -/
inductive TxCall where
  | reg (id v : Byte)
  | slot (id v : Byte)
  deriving DecidableEq, Repr

/-- One event of the transport trace (R99). -/
structure TxEvent where
  call : TxCall
  answer : TxAnswer
  deriving DecidableEq, Repr

/-- One row of the platform's `PRE` (R7): the register writes before table `kind` of tile `tile`. -/
structure PreRow where
  kind : TableKind
  tile : BitVec 16
  writes : List RegWrite
  deriving DecidableEq, Repr

/-- What the host does next. One entry is taken a step (log 1). -/
inductive HostInput where
  /-- A command word (R80). `writes` are the canvas bytes the host writes while the command runs, none under
  the contract of R247. -/
  | command (w : Word) (writes : List Host.Cell)
  /-- The reset input, between commands (R240). -/
  | reset
  /-- The reset input, asserted while the command `w` runs (R242). `writes` are the canvas bytes the host writes
  while it runs (R64); that such writes can race with a command that is cut is DESIGN CHOICE, log 9. -/
  | resetDuring (w : Word) (writes : List Host.Cell)
  /-- The host writes one canvas byte between commands (R53). -/
  | writeCanvas (idx : Nat) (v : Byte)
  /-- The host attaches a fresh canvas memory of `len` bytes (R245). -/
  | attachCanvas (len : Nat)
  deriving DecidableEq, Repr

/-- A canvas memory as a list of (index, byte). -/
abbrev Memory := List Host.Cell

/-- `TILE` (R28), 24 columns of 5 pixels, reached only by coordinate. -/
abbrev Tile := Vector (Vector Byte 5) 24

/-- `ONOFF` (R29). -/
abbrev OnOff := Vector Byte 24

/-- `PWM` (R30). -/
abbrev Pwm := Vector Byte 131

structure State where
  /-- `STATUS`, control register 0 (R23). -/
  status : BitVec 16
  /-- `CANVAS_W`, control register 1 (R24). -/
  canvasW : BitVec 16
  /-- `CANVAS_H`, control register 2 (R25). -/
  canvasH : BitVec 8
  /-- `TILE_IX`, control register 4 (R27). -/
  tileIx : BitVec 16
  /-- The scratch tile (R28). -/
  tile : Tile
  /-- The on/off bitmap (R29). -/
  onoff : OnOff
  /-- The brightness table (R30). -/
  pwm : Pwm
  /-- The host's canvas memory (R51), in canonical form. -/
  canvas : Memory
  /-- `CANVAS_LEN` (R7). -/
  canvasLen : Nat
  /-- The canvas bytes the host writes while the present command runs (R64, log 8). -/
  racing : List Host.Cell
  /-- The host's actions still to come (log 1). -/
  inputs : List HostInput
  /-- The responses given, oldest first (R93, log 2). -/
  responses : List Response
  /-- The transport trace, oldest first (R99, log 3). -/
  trace : List TxEvent
  /-- The platform's `PRE`, where it is given (R7, log 5). -/
  preTable : List PreRow
  /-- The transport's next answers, where they are given (R7, log 4). -/
  answers : List TxAnswer
  /-- The model's own counter of host actions, which feeds free values (log 8, log 9). -/
  tick : Nat
  deriving DecidableEq, Repr

/-- Why the machine stops with a fault. There is no such reason: the TAE answers every word and goes on after
every fault (R93, R221), so no constructor is needed and no meaning raises one. -/
inductive Fault where
  deriving DecidableEq, Repr

/-- Why the model gives a step no meaning. -/
inductive Refusal where
  /-- Raised by an arm of `exec` whose command has no meaning in the model. No arm does. Safe. -/
  | notModelled (mnemonic : String)
  /-- Raised by `step` when the host is said to write a canvas byte that the attached memory does not have:
  U2 allows the host's writes "on indices below `CANVAS_LEN` only". Safe (log 7). -/
  | canvasWriteOutside
  deriving DecidableEq, Repr

/-- `TILE` with every pixel off (R34). -/
def blankTile : Tile := Vector.replicate 24 (Vector.replicate 5 0x00#8)

/-- `ONOFF` with every byte 0x00 (R34). -/
def blankOnOff : OnOff := Vector.replicate 24 0x00#8

/-- `PWM` with every byte 0x00 (R34). -/
def blankPwm : Pwm := Vector.replicate 131 0x00#8

/-- The machine right after reset: R34's values, no canvas attached (log 6), nothing on the ports (log 1,
log 2, log 3), `PRE` and the transport's answers left to their free values (log 4, log 5). -/
def State.reset : State where
  status := 0x0000#16
  canvasW := 0#16
  canvasH := 0#8
  tileIx := 0#16
  tile := blankTile
  onoff := blankOnOff
  pwm := blankPwm
  canvas := []
  canvasLen := 0
  racing := []
  inputs := []
  responses := []
  trace := []
  preTable := []
  answers := []
  tick := 0

end Sys2Proof.Machine
end

