-- ==== Sys2Proof/Machine/Flags.lean ====
section
/-!
DEFINITION. The TAE's only flags: the `BOUND` bit and the four sticky fault bits of `STATUS` (R23), and the
response codes, which are the bit numbers of the sticky fields (R23, R210).
-/

namespace Sys2Proof.Machine

/-- The code of a fault and the number of its sticky bit (R210). -/
def FaultKind.code : FaultKind → Nat
  | .constructionError => 1
  | .boundsViolation => 2
  | .transportFailure => 3
  | .illegalCommand => 4

/-- The 4-bit code of a response (R93). -/
def RespCode.num : RespCode → Nat
  | .ok => 0
  | .raised k => k.code

/-- The response as it stands on the port, `{code[3:0], data[31:0]}` (R93). -/
def Response.bits (r : Response) : BitVec 36 := BitVec.ofNat 4 r.code.num ++ r.data

/-- `STATUS.BOUND` (R23). -/
def State.bound (s : State) : Bool := s.status.getLsbD 0

/-- The sticky bit of a fault kind (R23). -/
def State.sticky (s : State) (k : FaultKind) : Bool := s.status.getLsbD k.code

/-- `STATUS` with bit `n` set. -/
def setStatusBit (status : BitVec 16) (n : Nat) : BitVec 16 := status ||| (1#16 <<< n)

/-- `STATUS` as software reads it: bits 15:5 read as zero (R23, log 11). -/
def State.statusRead (s : State) : BitVec 16 := s.status &&& 0x001F#16

end Sys2Proof.Machine
end

