-- ==== Sys2Proof/Machine/Ops.lean ====
section
/-!
DEFINITION. The shared operations: canvas memory (R10, R51), responding and raising a fault (R12, R219), the
reset of the TAE's own state (R34), and the result of work that a fault can end.
-/

namespace Sys2Proof.Machine

/-- What an index that the list does not hold reads as: a fresh canvas is "zero-filled" (R245, log 6). -/
def Memory.blank : Byte := 0x00#8

/-- The byte the memory holds at an index. -/
def Memory.read : Memory → Nat → Byte
  | [], _ => Memory.blank
  | (a, v) :: m, i => if a = i then v else Memory.read m i

/-- The memory with `v` at index `i`; the list stays rising and holds no blank byte. -/
def Memory.write : Memory → Nat → Byte → Memory
  | [], i, v => if v = Memory.blank then [] else [(i, v)]
  | (a, u) :: m, i, v =>
    if i < a then
      if v = Memory.blank then (a, u) :: m else (i, v) :: (a, u) :: m
    else if i = a then
      if v = Memory.blank then m else (i, v) :: m
    else (a, u) :: Memory.write m i v

/-- Several writes, one after the other. -/
def Memory.writeAll (m : Memory) (ws : List Host.Cell) : Memory :=
  ws.foldl (fun m c => Memory.write m c.1 c.2) m

/-- The canonical form: indices strictly rising, no blank byte listed. -/
abbrev Memory.wf (m : Memory) : Prop :=
  m.Pairwise (fun c d => c.1 < d.1) ∧ ∀ c ∈ m, c.2 ≠ Memory.blank

/-- The byte a canvas read sees: the byte held, unless the host is writing the same index during this command;
then the old byte or one of the new ones, a free choice (R64, log 8). -/
def racedByte (s : State) (idx : Nat) : Byte :=
  match (s.racing.filter (fun c => c.1 == idx)).map Prod.snd with
  | [] => s.canvas.read idx
  | b :: bs =>
    let seen := s.canvas.read idx :: b :: bs
    (seen[Config.raceChoice s.tick idx % seen.length]?).getD (s.canvas.read idx)

/-- `MemRead(CANVAS, idx, 1)` of R10; `none` is its BoundsViolation at an index the memory does not have. -/
def canvasRead (s : State) (idx : Nat) : Option Byte :=
  if idx < s.canvasLen then some (racedByte s idx) else none

/-- `respond(code, data)` of R12: the response goes to the port. -/
def State.respond (s : State) (code : RespCode) (data : Word) : State :=
  { s with responses := s.responses ++ [⟨code, data⟩] }

/-- TAKING A FAULT, `raise <Fault>(data)` of R219: the sticky bit, then the response; nothing else changes.
There is no return to model beside it (R222). -/
def State.raise (s : State) (k : FaultKind) (data : Word) : State :=
  { s with
    status := setStatusBit s.status k.code
    responses := s.responses ++ [⟨.raised k, data⟩] }

/-- Every piece of the TAE's own state at its reset value (R34); the ports, the canvas, the transport and the
parameters stay (R241). -/
def State.resetTae (s : State) : State :=
  { s with
    status := 0x0000#16
    canvasW := 0#16
    canvasH := 0#8
    tileIx := 0#16
    tile := blankTile
    onoff := blankOnOff
    pwm := blankPwm }

/-- Work that a fault can end: it ran to its end, or `raise` is to be called with this kind and data. -/
inductive Work where
  | done (s : State)
  | ended (k : FaultKind) (data : Word) (s : State)
  deriving DecidableEq, Repr

/-- The state that work has reached. -/
def Work.state : Work → State
  | .done s => s
  | .ended _ _ s => s

/-- The end of a command: `respond(OK, data)`, or the `raise` that ended its work. -/
def Work.finish (data : Word) : Work → State
  | .done s => s.respond .ok data
  | .ended k d s => s.raise k d

/-- The command word, which most faults record (R94): the word of the instruction (log 10). -/
def commandWord (i : Instr) : Word := encode i

end Sys2Proof.Machine
end

