-- ==== Sys2Proof/Machine/Operands.lean ====
section
/-!
DEFINITION. What an operand names: a pixel of the scratch tile, a byte of a buffer, a control register. `none`
means that the operand lies outside what it indexes (R212, R193); no value is ever given for it (U1).
-/

namespace Sys2Proof.Machine

/-- The coordinate is one of the tile's (R28). -/
def inTile (x y : Nat) : Bool := decide (x < 24) && decide (y < 5)

/-- `TILE[x][y]` (R9). -/
def readPixel (t : Tile) (x y : Nat) : Option Byte :=
  match t[x]? with
  | some column => column[y]?
  | none => none

/-- `TILE[x][y] <- v` (R9). -/
def writePixel (t : Tile) (x y : Nat) (v : Byte) : Option Tile :=
  match t[x]? with
  | some column => if y < 5 then some (t.setIfInBounds x (column.setIfInBounds y v)) else none
  | none => none

/-- `ONOFF[i]` (R9). -/
def readOnOff (b : OnOff) (i : Nat) : Option Byte := b[i]?

/-- `PWM[i]` (R9). -/
def readPwm (b : Pwm) (i : Nat) : Option Byte := b[i]?

/-- `tile_count(W)` (R150). -/
def tileCount (w : BitVec 16) : Nat := w.toNat / 24

/-- Control register `n`, widened to 32 bits (R22, R193). -/
def readControl (s : State) : Nat → Option Word
  | 0 => some (s.statusRead.setWidth 32)
  | 1 => some (s.canvasW.setWidth 32)
  | 2 => some (s.canvasH.setWidth 32)
  | 3 => some (BitVec.ofNat 32 (tileCount s.canvasW))
  | 4 => some (s.tileIx.setWidth 32)
  | _ => none

end Sys2Proof.Machine
end

