-- ==== Sys2Proof/Machine/Mapper.lean ====
section
/-!
DEFINITION. The coordinate mapper (file 40) and the `MAP` command.
-/

namespace Sys2Proof.Machine

/-- R110. -/
def ledIndex (x y : Nat) : Nat := x * 5 + y

/-- R111. -/
def registerBit (led : Nat) : Nat := led % 10

/-- R112. -/
def registerIndex (led : Nat) : Nat := led / 10 * 2 + registerBit led / 8

/-- R113. -/
def bitInByte (led : Nat) : Nat := registerBit led % 8

/-- R113. -/
def bitMask (led : Nat) : Byte := 1#8 <<< bitInByte led

/-- R115. -/
def pwmSlot (led : Nat) : Nat := led

/-- R114: one pixel's update of an on/off buffer. -/
def updateOnOff (buf : OnOff) (led : Nat) (p : Byte) : OnOff :=
  let old := (buf[registerIndex led]?).getD 0x00#8
  buf.setIfInBounds (registerIndex led)
    (if p ≠ 0x00#8 then old ||| bitMask led else old &&& ~~~(bitMask led))

/-- The data of a `MAP` response (R94, R119), most significant field first. -/
def mapData (x y : Nat) : Word :=
  let led := ledIndex x y
  (BitVec.ofNat 3 (bitInByte led) ++ BitVec.ofNat 4 (registerBit led) ++ 0b000#3
    ++ BitVec.ofNat 5 (registerIndex led) ++ BitVec.ofNat 8 led).setWidth 32

/-- `MAP x, y` (R119). -/
def execMap (x y : Nat) (s : State) : Host.Outcome State Fault Refusal :=
  .next (match inTile x y with
    | true => s.respond .ok (mapData x y)
    | false => s.raise .boundsViolation (commandWord (.map x y)))

end Sys2Proof.Machine
end

