-- ==== Sys2Proof/Machine/Packer.lean ====
section
/-!
DEFINITION. The packer (file 41): `TCLR`, `TPIX`, `ENCODE`, and which brightness byte is sent.
-/

namespace Sys2Proof.Machine

/-- The 120 coordinates of a tile, `for x in 0..23: for y in 0..4` (R132). -/
@[irreducible] def tilePixels : List (Fin 24 × Fin 5) :=
  (List.finRange 24).flatMap fun x => (List.finRange 5).map fun y => (x, y)

/-- One turn of `ENCODE`'s loop (R132): the pixel's bit and its brightness byte. -/
def packPixel (t : Tile) (out : OnOff × Pwm) (p : Fin 24 × Fin 5) : OnOff × Pwm :=
  let v := t[p.1][p.2]
  let led := ledIndex p.1 p.2
  (updateOnOff out.1 led v, out.2.setIfInBounds (pwmSlot led) v)

/-- The document's `encode_tile` (R132): clear both buffers, then pack every pixel. -/
def encodeTile (t : Tile) : OnOff × Pwm :=
  tilePixels.foldl (packPixel t) (blankOnOff, blankPwm)

/-- The body of `ENCODE` without its response (R132, R176). -/
def State.encodeBuffers (s : State) : State :=
  { s with onoff := (encodeTile s.tile).1, pwm := (encodeTile s.tile).2 }

/-- `bright_out(b, i)` (R138). -/
def brightOut (pwm : Pwm) (b : Bool) (i : Nat) : Byte :=
  match b with
  | true => (readPwm pwm i).getD 0x00#8
  | false => 0xFF#8

/-- `TCLR` (R130). -/
def execTclr (s : State) : Host.Outcome State Fault Refusal :=
  .next ({ s with tile := blankTile }.respond .ok 0)

/-- `TPIX x, y, v` (R131). -/
def execTpix (x y v : Nat) (s : State) : Host.Outcome State Fault Refusal :=
  .next (match writePixel s.tile x y (BitVec.ofNat 8 v) with
    | some t => { s with tile := t }.respond .ok 0
    | none => s.raise .boundsViolation (commandWord (.tpix x y v)))

/-- `ENCODE` (R132). -/
def execEncode (s : State) : Host.Outcome State Fault Refusal :=
  .next (s.encodeBuffers.respond .ok 0)

end Sys2Proof.Machine
end

