-- ==== Sys2Proof/Machine/Partitioner.lean ====
section
/-!
DEFINITION. The canvas partitioner (file 42): `CANVAS`, `SPLIT`, `LOADT`, and the slice copy that `RENDER`
shares with `LOADT`.
-/

namespace Sys2Proof.Machine

/-- The canvas index of pixel `(x, y)` of tile `t` on a canvas of width `w` (R51, R155, R157). -/
def sliceIndex (w t x y : Nat) : Nat := 24 * t + x + y * w

/-- The byte that `load_tile` puts at `(x, y)`: a canvas byte, or 0x00 below the canvas (R156, R157); `none`
where the read raises BoundsViolation. -/
def sliceByte (s : State) (t x y : Nat) : Option Byte :=
  if y < s.canvasH.toNat then canvasRead s (sliceIndex s.canvasW.toNat t x y) else some 0x00#8

/-- The slice that `load_tile` copies, where every read has a byte (R157, R158). -/
@[irreducible] def sliceTile (s : State) (t : Nat) : Tile :=
  Vector.ofFn fun x => Vector.ofFn fun y => (sliceByte s t x y).getD 0x00#8

/-- `load_tile` up to its last read (R157): the whole slice, or `none` where it raises BoundsViolation. The
reads are made all at once (R69, log 15). -/
def loadSlice (s : State) (t : Nat) : Option Tile :=
  if 5 < s.canvasH.toNat then none
  else if tilePixels.all (fun p => (sliceByte s t p.1 p.2).isSome) then
    some (sliceTile s t)
  else none

/-- The data of a `SPLIT` response (R154). -/
def splitData (w : BitVec 16) : Word :=
  (BitVec.ofNat 5 (w.toNat % 24) ++ BitVec.ofNat 16 (tileCount w)).setWidth 32

/-- `CANVAS w, h` (R151, R152). -/
def execCanvas (w h : Nat) (s : State) : Host.Outcome State Fault Refusal :=
  .next (if w = 0 ∨ h = 0 then s.raise .constructionError (commandWord (.canvas w h))
    else { s with
        canvasW := BitVec.ofNat 16 w
        canvasH := BitVec.ofNat 8 h
        status := setStatusBit s.status 0
        tileIx := 0#16 }.respond .ok (BitVec.ofNat 32 (w / 24)))

/-- `SPLIT` (R154). -/
def execSplit (s : State) : Host.Outcome State Fault Refusal :=
  .next (match s.bound with
    | true => s.respond .ok (splitData s.canvasW)
    | false => s.raise .constructionError (commandWord .split))

/-- The body of `LOADT` once a canvas is bound (R157). -/
def loadTile (t : Nat) (cmd : Word) (s : State) : Work :=
  if tileCount s.canvasW ≤ t then .ended .boundsViolation cmd s
  else match loadSlice s t with
    | some tile => .done { s with tile := tile, tileIx := BitVec.ofNat 16 t }
    | none => .ended .boundsViolation cmd s

/-- `LOADT t` (R157). -/
def execLoadt (t : Nat) (s : State) : Host.Outcome State Fault Refusal :=
  .next (match s.bound with
    | true => (loadTile t (commandWord (.loadt t)) s).finish (BitVec.ofNat 32 (24 * t))
    | false => s.raise .constructionError (commandWord (.loadt t)))

end Sys2Proof.Machine
end

