-- ==== Sys2Proof/Machine/Emission.lean ====
section
/-!
DEFINITION. The output side (file 43): the transport calls of a tile, what happens when one of them fails,
`EMIT` and `RENDER`.
-/

namespace Sys2Proof.Machine

/-- `PRE(kind, t)` (R7): the platform's row, or the free value where it gives none (log 5). -/
def preWrites (s : State) (kind : TableKind) (t : BitVec 16) : List RegWrite :=
  match s.preTable.find? (fun r => r.kind == kind && r.tile == t) with
  | some r => r.writes
  | none => Config.pre kind t

/-- The kind numbers of R95. -/
def kindNumber : TableKind → Nat
  | .onoff => 0
  | .blink => 1
  | .pwm => 2

/-- `len(kind)` (R171). -/
def tableLen : TableKind → Nat
  | .onoff => 24
  | .blink => Config.blinkLen
  | .pwm => 131

/-- `entry(kind, i, b)` (R171). -/
def tableEntry (s : State) (b : Bool) (i : Nat) : TableKind → Byte
  | .onoff => (readOnOff s.onoff i).getD 0x00#8
  | .blink => 0x00#8
  | .pwm => brightOut s.pwm b i

/-- The calls of `emit_table(kind, t, b)` in order (R171). -/
def tableCalls (s : State) (t : BitVec 16) (b : Bool) (kind : TableKind) : List TxCall :=
  (preWrites s kind t).map (fun r => TxCall.reg r.id r.v)
    ++ (List.range (tableLen kind)).map fun i =>
        TxCall.slot (BitVec.ofNat 8 (Config.slotBase kind + i)) (tableEntry s b i kind)

/-- The calls of `emit_tile(t, b)` in order, each with its table (R170, R172). -/
def tileCalls (s : State) (t : BitVec 16) (b : Bool) : List (TableKind × TxCall) :=
  [TableKind.onoff, TableKind.blink, TableKind.pwm].flatMap fun kind =>
    (tableCalls s t b kind).map fun c => (kind, c)

/-- The transport's answer to the `n`-th call from now (R7, log 4). -/
def answerAt (s : State) (n : Nat) : TxAnswer :=
  (s.answers[n]?).getD (Config.txAnswer (s.trace.length + n))

/-- Issue calls one after the other until one fails (R171, R174): the events, and the table of the failing
call. The answer to the first call is `answer n`. -/
def issueCalls (answer : Nat → TxAnswer) : List (TableKind × TxCall) → Nat → List TxEvent × Option TableKind
  | [], _ => ([], none)
  | (kind, c) :: rest, n =>
    match answer n with
    | .fail => ([⟨c, .fail⟩], some kind)
    | .ok =>
      let later := issueCalls answer rest (n + 1)
      (⟨c, .ok⟩ :: later.1, later.2)

/-- The transport has taken some calls: they stand in the trace and their answers are used up. -/
def State.sent (s : State) (events : List TxEvent) : State :=
  { s with trace := s.trace ++ events, answers := s.answers.drop events.length }

/-- The data of a TransportFailure (R94, R171). -/
def failureData (kind : TableKind) (t : BitVec 16) : Word :=
  (BitVec.ofNat 2 (kindNumber kind) ++ t).setWidth 32

/-- `emit_tile(t, b)` (R172). -/
def emitTile (t : BitVec 16) (b : Bool) (s : State) : Work :=
  match issueCalls (answerAt s) (tileCalls s t b) 0 with
  | (events, none) => .done (s.sent events)
  | (events, some kind) => .ended .transportFailure (failureData kind t) (s.sent events)

/-- `EMIT t, b` (R173). -/
def execEmit (t : Nat) (b : Bool) (s : State) : Host.Outcome State Fault Refusal :=
  .next ((emitTile (BitVec.ofNat 16 t) b { s with tileIx := BitVec.ofNat 16 t }).finish 0)

/-- One turn of `RENDER`'s loop (R176). -/
def renderTile (cmd : Word) (b : Bool) (t : Nat) (s : State) : Work :=
  match loadSlice s t with
  | some tile =>
    emitTile (BitVec.ofNat 16 t) b
      { s with tileIx := BitVec.ofNat 16 t, tile := tile }.encodeBuffers
  | none => .ended .boundsViolation cmd { s with tileIx := BitVec.ofNat 16 t }

/-- `RENDER`'s loop over the given tiles (R176, R179). -/
def renderTiles (cmd : Word) (b : Bool) : List Nat → State → Work
  | [], s => .done s
  | t :: ts, s =>
    match renderTile cmd b t s with
    | .done s' => renderTiles cmd b ts s'
    | .ended k d s' => .ended k d s'

/-- `RENDER b, clip` (R176); `clip` is ignored (R177). -/
def execRender (b : Bool) (clip : Nat) (s : State) : Host.Outcome State Fault Refusal :=
  .next (match s.bound with
    | true =>
      (renderTiles (commandWord (.render b clip)) b (List.range (tileCount s.canvasW)) s).finish
        (BitVec.ofNat 32 (tileCount s.canvasW))
    | false => s.raise .constructionError (commandWord (.render b clip)))

end Sys2Proof.Machine
end

