-- ==== Sys2Proof/Machine/System.lean ====
section
/-!
DEFINITION. The system and read-back commands (file 44), and the answer to a word that is no command (R90).
-/

namespace Sys2Proof.Machine

/-- `NOP` (R190). -/
def execNop (s : State) : Host.Outcome State Fault Refusal :=
  .next (s.respond .ok 0)

/-- `RST` (R191). -/
def execRst (s : State) : Host.Outcome State Fault Refusal :=
  .next (s.resetTae.respond .ok 0)

/-- `RDCR n` (R193). -/
def execRdcr (n : Nat) (s : State) : Host.Outcome State Fault Refusal :=
  .next (match readControl s n with
    | some v => s.respond .ok v
    | none => s.raise .illegalCommand (commandWord (.rdcr n)))

/-- `RDTP x, y` (R194). -/
def execRdtp (x y : Nat) (s : State) : Host.Outcome State Fault Refusal :=
  .next (match readPixel s.tile x y with
    | some p => s.respond .ok (p.setWidth 32)
    | none => s.raise .boundsViolation (commandWord (.rdtp x y)))

/-- `RDOO i` (R195). -/
def execRdoo (i : Nat) (s : State) : Host.Outcome State Fault Refusal :=
  .next (match readOnOff s.onoff i with
    | some p => s.respond .ok (p.setWidth 32)
    | none => s.raise .boundsViolation (commandWord (.rdoo i)))

/-- `RDPW i` (R196). -/
def execRdpw (i : Nat) (s : State) : Host.Outcome State Fault Refusal :=
  .next (match readPwm s.pwm i with
    | some p => s.respond .ok (p.setWidth 32)
    | none => s.raise .boundsViolation (commandWord (.rdpw i)))

/-- A word that is no command: IllegalCommand with the whole word as data (R90, R214). -/
def answerIllegal (w : Word) (s : State) : Host.Outcome State Fault Refusal :=
  .next (s.raise .illegalCommand w)

end Sys2Proof.Machine
end

