-- ==== Sys2Proof/Machine/Dispatch.lean ====
section
/-!
DEFINITION. One arm per command: the meaning that file 40 to 44 of the spec gives it.
-/

namespace Sys2Proof.Machine

def exec (i : Instr) (s : State) : Host.Outcome State Fault Refusal :=
  match i with
  | .nop => Sys2Proof.Machine.execNop s
  | .rst => Sys2Proof.Machine.execRst s
  | .map x y => Sys2Proof.Machine.execMap x y s
  | .tclr => Sys2Proof.Machine.execTclr s
  | .tpix x y v => Sys2Proof.Machine.execTpix x y v s
  | .encode => Sys2Proof.Machine.execEncode s
  | .canvas w h => Sys2Proof.Machine.execCanvas w h s
  | .split => Sys2Proof.Machine.execSplit s
  | .loadt t => Sys2Proof.Machine.execLoadt t s
  | .emit t b => Sys2Proof.Machine.execEmit t b s
  | .render b clip => Sys2Proof.Machine.execRender b clip s
  | .rdcr n => Sys2Proof.Machine.execRdcr n s
  | .rdtp x y => Sys2Proof.Machine.execRdtp x y s
  | .rdoo idx => Sys2Proof.Machine.execRdoo idx s
  | .rdpw idx => Sys2Proof.Machine.execRdpw idx s

end Sys2Proof.Machine
end

