-- ==== Sys2Proof/Machine/Ports.lean ====
section
/-!
DEFINITION. The parts of a step around a command: taking the host's next action, the host's canvas writes that
race with the command, the reset input, and placing a command word.
-/

namespace Sys2Proof.Machine

/-- The host's next action is taken and the rest remains; `racing` are the canvas bytes the host writes while
it runs (log 1, log 8). -/
def State.take (s : State) (rest : List HostInput) (racing : List Host.Cell) : State :=
  { s with inputs := rest, racing := racing, tick := s.tick + 1 }

/-- The host writes only canvas bytes that exist (U2). -/
def State.writable (s : State) (ws : List Host.Cell) : Bool :=
  ws.all fun c => decide (c.1 < s.canvasLen)

/-- The command is over: the bytes the host wrote meanwhile are in the canvas (R64). -/
def State.settle (s : State) : State :=
  { s with canvas := s.canvas.writeAll s.racing, racing := [] }

/-- The end of a step that ran a command. -/
def settleOutcome : Host.Outcome State Fault Refusal → Host.Outcome State Fault Refusal
  | .next t => .next t.settle
  | .fault r => .fault r
  | .refused r => .refused r

/-- The reset input while a command runs (R242): from `s`, whose command would have led to `t`, the TAE is in
its reset state, a free number of the command's transport calls was issued, and there is no response. -/
def State.cutTo (s t : State) : State :=
  let issued := (t.trace.drop s.trace.length).take (Config.resetCut s.tick)
  { s with
    trace := s.trace ++ issued
    answers := s.answers.drop issued.length }.resetTae

/-- The end of a step whose command the reset input cut: the bytes the host wrote meanwhile are in the canvas
(log 9). -/
def cutOutcome (s : State) : Host.Outcome State Fault Refusal → Host.Outcome State Fault Refusal
  | .next t => .next (s.cutTo t).settle
  | .fault r => .fault r
  | .refused r => .refused r

/-- The host's canvas write between commands (R53, U2). -/
def hostWrite (idx : Nat) (v : Byte) (s : State) : Host.Outcome State Fault Refusal :=
  if s.writable [(idx, v)] then .next { s with canvas := s.canvas.write idx v }
  else .refused .canvasWriteOutside

/-- The host attaches a fresh canvas memory, zero-filled (R245, log 6). -/
def hostAttach (len : Nat) (s : State) : Host.Outcome State Fault Refusal :=
  .next { s with canvas := [], canvasLen := len }

/-- A word put on the command port before everything the host has still to do. -/
def placeCommand (w : Word) (s : State) : State :=
  { s with inputs := .command w [] :: s.inputs }

end Sys2Proof.Machine
end

