-- ==== Sys2Proof/Machine/Step.lean ====
section
/-!
DEFINITION. One step: the host's next action, or waiting for one (R13, R35, R62).
-/

namespace Sys2Proof.Machine

/-- What the TAE does with a command word: decode it, then its command, or IllegalCommand (R90, R216). -/
def runWord (w : Word) (s : State) : Host.Outcome State Fault Refusal :=
  match decode w with
  | .command i => exec i s
  | .illegal _ => answerIllegal w s

def step (s : State) : Host.Outcome State Fault Refusal :=
  match s.inputs with
  | [] => .next s
  | .command w writes :: rest =>
    match s.writable writes with
    | true => settleOutcome (runWord w (s.take rest writes))
    | false => .refused .canvasWriteOutside
  | .reset :: rest => .next (s.take rest []).resetTae
  | .resetDuring w writes :: rest =>
    match s.writable writes with
    | true => cutOutcome (s.take rest writes) (runWord w (s.take rest writes))
    | false => .refused .canvasWriteOutside
  | .writeCanvas idx v :: rest => hostWrite idx v (s.take rest [])
  | .attachCanvas len :: rest => hostAttach len (s.take rest [])

/-- The word of an opcode-table row on the command port, as the very next command (log 1). -/
def State.withFetchWord (s : State) (nbits w : Nat) : State := placeCommand (tableWord nbits w) s

end Sys2Proof.Machine
end

