-- ==== Sys2Proof/Safety.lean ====
section
/-!
DEFINITION. What claims are stated with: the formats of R81 to R87 drawn bit field by bit field, the invariant of
the machine between steps, R34's reset values.
-/

namespace Sys2Proof.Format

/-- Format Z (R81). -/
def wordZ (op : BitVec 8) : Word := op ++ 0#24

/-- Format XY (R82). -/
def wordXY (op : BitVec 8) (x y : Nat) : Word :=
  op ++ 0#3 ++ BitVec.ofNat 5 x ++ 0#5 ++ BitVec.ofNat 3 y ++ 0#8

/-- Format P (R83). -/
def wordP (op : BitVec 8) (x y v : Nat) : Word :=
  op ++ 0#3 ++ BitVec.ofNat 5 x ++ 0#5 ++ BitVec.ofNat 3 y ++ BitVec.ofNat 8 v

/-- Format C (R84). -/
def wordC (op : BitVec 8) (w h : Nat) : Word := op ++ BitVec.ofNat 16 w ++ BitVec.ofNat 8 h

/-- Format T (R85). -/
def wordT (op : BitVec 8) (t : Nat) : Word := op ++ 0#8 ++ BitVec.ofNat 16 t

/-- Format B (R86). -/
def wordB (op : BitVec 8) (b : Bool) (imm : Nat) : Word := op ++ 0#7 ++ BitVec.ofBool b ++ BitVec.ofNat 16 imm

/-- Format I (R87). -/
def wordI (op : BitVec 8) (idx : Nat) : Word := op ++ 0#16 ++ BitVec.ofNat 8 idx

end Sys2Proof.Format

namespace Sys2Proof.Machine

/-- What holds of the machine between steps. -/
structure State.Inv (s : State) : Prop where
  /-- Bits 15:5 of `STATUS` are zero (R23). -/
  reservedZero : s.status &&& 0xFFE0#16 = 0#16
  /-- A bound canvas has a width and a height (R23, R24, R25). -/
  boundSize : s.bound = true → s.canvasW ≠ 0#16 ∧ s.canvasH ≠ 0#8
  /-- An unbound TAE holds no dimensions (R153). -/
  unboundSize : s.bound = false → s.canvasW = 0#16 ∧ s.canvasH = 0#8
  /-- Bits 7:2 of every odd byte of the on/off bitmap are zero (R134). -/
  oddBytes : ∀ k < 12, ∀ b, readOnOff s.onoff (2 * k + 1) = some b → b &&& 0xFC#8 = 0#8
  /-- The filler slots of the brightness table are zero (R136). -/
  fillerSlots : ∀ i, 120 ≤ i → i < 131 → readPwm s.pwm i = some 0x00#8
  /-- The canvas memory is in canonical form. -/
  canvasForm : s.canvas.wf
  /-- The canvas memory lists no byte that it does not have (R50). -/
  canvasInside : ∀ c ∈ s.canvas, c.1 < s.canvasLen
  /-- No command is running. -/
  notRacing : s.racing = []

/-- R34's values: every piece of the TAE's own state as reset leaves it. -/
structure State.AtResetValues (s : State) : Prop where
  status : s.status = 0x0000#16
  canvasW : s.canvasW = 0#16
  canvasH : s.canvasH = 0#8
  tileCount : readControl s 3 = some 0#32
  tileIx : s.tileIx = 0#16
  tile : ∀ x < 24, ∀ y < 5, readPixel s.tile x y = some 0x00#8
  onoff : ∀ i < 24, readOnOff s.onoff i = some 0x00#8
  pwm : ∀ i < 131, readPwm s.pwm i = some 0x00#8

end Sys2Proof.Machine
end

