-- ==== Sys2Proof/Certificates/Slice0/Obligations.lean ====
section
/-!
DEFINITION. The statements about the model, taken from the spec's numbered rules, and the plain functions they
are stated with (what a table, a tile and a whole render send; what a slice of the canvas is). A statement of a
result says the whole next state, so that it is a completion and a frame as well.
-/

open Sys2Proof Sys2Proof.Machine

namespace Sys2Proof.Spec

/-- `on(n)` of R133: the pixel of LED `n` is nonzero. -/
def lit (t : Tile) (n : Nat) : Bool :=
  match readPixel t (n / 5) (n % 5) with
  | some p => p != 0x00#8
  | none => false

/-- Register writes as transport calls, in list order (R171). -/
def regCalls (ws : List RegWrite) : List TxCall := ws.map fun r => .reg r.id r.v

/-- The bytes of a table as slot writes in ascending slots from 0 (R55, R171). -/
def slotCalls (bytes : List Byte) : List TxCall := bytes.mapIdx fun i v => .slot (BitVec.ofNat 8 i) v

/-- The brightness table as it is sent (R138). -/
def brightness (b : Bool) (pwm : Pwm) : List Byte :=
  if b then pwm.toList else List.replicate 131 0xFF#8

/-- Every transport call of a tile whose buffers are given: `PRE` and the on/off table, `PRE` and the 24 zero
bytes of the blink table, `PRE` and the brightness table (R170, R171, R172). -/
def tileSends (s : State) (t : BitVec 16) (b : Bool) (onoff : OnOff) (pwm : Pwm) : List TxCall :=
  regCalls (preWrites s .onoff t) ++ slotCalls onoff.toList
    ++ regCalls (preWrites s .blink t) ++ slotCalls (List.replicate 24 0x00#8)
    ++ regCalls (preWrites s .pwm t) ++ slotCalls (brightness b pwm)

/-- The number of the table that the `n`-th call of a tile belongs to (R94, R95). -/
def sendKind (s : State) (t : BitVec 16) (n : Nat) : Nat :=
  if n < (preWrites s .onoff t).length + 24 then 0
  else if n < (preWrites s .onoff t).length + 24 + (preWrites s .blink t).length + 24 then 1
  else 2

/-- A call is a `TxReg`, not a `TxSlot`. -/
def isRegCall : TxCall → Bool
  | .reg _ _ => true
  | .slot _ _ => false

/-- Calls as events that the transport answered `ok`. -/
def answeredOk (calls : List TxCall) : List TxEvent := calls.map fun c => ⟨c, .ok⟩

/-- Calls as events that the transport answered `fail`. -/
def answeredFail (calls : List TxCall) : List TxEvent := calls.map fun c => ⟨c, .fail⟩

/-- The slice of tile `t` in closed form (R158), of a canvas that no host write races with. -/
def canvasSlice (s : State) (t : Nat) : Tile :=
  Vector.ofFn fun x => Vector.ofFn fun y =>
    if y.val < s.canvasH.toNat then s.canvas.read (24 * t + x + y * s.canvasW.toNat) else 0x00#8

/-- What tile `t` of a render sends: its slice, encoded. -/
def renderSends (s : State) (b : Bool) (t : Nat) : List TxCall :=
  tileSends s (BitVec.ofNat 16 t) b (encodeTile (canvasSlice s t)).1 (encodeTile (canvasSlice s t)).2

/-- What the first `n` tiles of a render send (R63: no tile's calls before an earlier tile's). -/
def rendersBefore (s : State) (b : Bool) (n : Nat) : List TxCall :=
  (List.range n).flatMap (renderSends s b)

/-- `LOADT t`, `ENCODE`, `EMIT t, b` for each given tile: the pseudo-command `RTILE` (R101). -/
def tileByTile (b : Bool) : List Nat → State → Host.Outcome State Fault Refusal
  | [], s => .next s
  | t :: ts, s =>
    match exec (.loadt t) s with
    | .next s₁ =>
      match exec .encode s₁ with
      | .next s₂ =>
        match exec (.emit t b) s₂ with
        | .next s₃ => tileByTile b ts s₃
        | .fault r => .fault r
        | .refused r => .refused r
      | .fault r => .fault r
      | .refused r => .refused r
    | .fault r => .fault r
    | .refused r => .refused r

/-- A canvas is bound, no host write races, its height fits the tile, and the attached memory holds all of
it (R244, R245, R247). -/
structure CanvasReady (s : State) : Prop where
  bound : s.bound = true
  quiet : s.racing = []
  height : s.canvasH.toNat ≤ 5
  sized : s.canvasW.toNat * s.canvasH.toNat ≤ s.canvasLen

end Sys2Proof.Spec

open Sys2Proof.Spec Sys2Proof.Format

/-! ## Encoding -/

/-- R80 to R88: no bit of a command's word is dropped or read twice. -/
def Obligations.DecodeOfEncodeGivesTheCommand : Prop :=
  ∀ i : Instr, i.wellFormed = true → decode (encode i) = .command i

/-- R88, R90: a word that decodes is the word of its command, and the command is well formed. -/
def Obligations.EncodeOfADecodedWordGivesTheWord : Prop :=
  ∀ (w : Word) (i : Instr), decode w = .command i → encode i = w ∧ i.wellFormed = true

/-- R89: the decoder agrees with the table of match and mask words, row by row. -/
def Obligations.WordSelectsARowByMatchAndMask : Prop :=
  ∀ (w : Word) (r : OpcodeRow), r ∈ opcodeTable →
    (w &&& r.mask = r.matchBits ↔ ∃ i, decode w = .command i ∧ i.mnemonic = r.mnemonic)

/-- Words written out in the spec's own vectors (file 95), one or more of each family. -/
def Obligations.VectorWordsDecodeToTheirCommands : Prop :=
  decode 0x00000000#32 = .command .nop ∧ decode 0x01000000#32 = .command .rst ∧
  decode 0x10170400#32 = .command (.map 23 4) ∧ decode 0x21010380#32 = .command (.tpix 1 3 0x80) ∧
  decode 0x22000000#32 = .command .encode ∧ decode 0x30006405#32 = .command (.canvas 100 5) ∧
  decode 0x32000003#32 = .command (.loadt 3) ∧ decode 0x4001FFFF#32 = .command (.emit 65535 true) ∧
  decode 0x4101BEEF#32 = .command (.render true 0xBEEF) ∧ decode 0x50000003#32 = .command (.rdcr 3) ∧
  decode 0x51170400#32 = .command (.rdtp 23 4) ∧ decode 0x53000083#32 = .command (.rdpw 131)

/-- R214: a word that no row selects, or an `RDCR` of register 5 to 255, raises IllegalCommand with the word
as data, and nothing of the TAE but `F_ILLEGAL` changes. -/
def Obligations.IllegalWordSetsOnlyItsStickyBit : Prop :=
  ∀ (s : State) (w : Word),
    ((∀ r ∈ opcodeTable, w &&& r.mask ≠ r.matchBits) ∨
      (w &&& 0xFFFFFF00#32 = 0x50000000#32 ∧ 5 ≤ (w &&& 0x000000FF#32).toNat)) →
    runWord w s = .next { s with
      status := s.status ||| 0x0010#16
      responses := s.responses ++ [⟨.raised .illegalCommand, w⟩] }

/-! ## Steps, reset, the host's actions -/

/-- R13, R62, R90: the word at the port is executed as the command it decodes to, in the state in which that
action has been taken (`taken`), and a word that is no command raises IllegalCommand with the word as data; then
the bytes the host wrote meanwhile (none under R247's contract) are in the canvas. -/
def Obligations.StepExecutesTheDecodedCommand : Prop :=
  ∀ (s taken : State) (w : Word) (writes : List Host.Cell) (rest : List HostInput),
    s.inputs = .command w writes :: rest → (∀ c ∈ writes, c.1 < s.canvasLen) →
    taken = { s with inputs := rest, racing := writes, tick := s.tick + 1 } →
    ∃ t, runWord w taken = .next t ∧
      (∀ i, decode w = .command i → exec i taken = .next t) ∧
      (∀ e, decode w = .illegal e → t = { taken with
        status := s.status ||| 0x0010#16
        responses := s.responses ++ [⟨.raised .illegalCommand, w⟩] }) ∧
      step s = .next { t with canvas := s.canvas.writeAll writes, racing := [] }

/-- R35, R243: with nothing from the host the TAE waits. The model's reading, log 1. -/
def Obligations.StepWaitsForTheHost : Prop :=
  ∀ s : State, s.inputs = [] → step s = .next s

/-- R34: the state after reset, and after `RST` from any state. -/
def Obligations.ResetStateHoldsTheResetValues : Prop :=
  State.reset.AtResetValues ∧ ∀ s : State, ∃ t, exec .rst s = .next t ∧ t.AtResetValues

/-- R191: `RST` clears all TAE state, the sticky bits and `BOUND` included, responds, and touches neither the
canvas nor the transport. -/
def Obligations.RstGivesTheResetState : Prop :=
  decode (wordZ 0x01#8) = .command .rst ∧
  ∀ s : State, ∃ t, exec .rst s = .next t ∧ t.AtResetValues ∧
    { t with status := s.status, canvasW := s.canvasW, canvasH := s.canvasH, tileIx := s.tileIx,
             tile := s.tile, onoff := s.onoff, pwm := s.pwm } =
      { s with responses := s.responses ++ [⟨.ok, 0x00000000#32⟩] }

/-- R240, with the reset input as an entry of the model's host list (log 1): the reset input does what `RST`
does, without a response. -/
def Obligations.ResetInputIsRstWithoutAResponse : Prop :=
  ∀ (s : State) (rest : List HostInput), s.inputs = .reset :: rest →
    ∃ t u, step s = .next t ∧ t.AtResetValues ∧
      exec .rst { s with inputs := rest, racing := [], tick := s.tick + 1 } = .next u ∧
      u = { t with responses := t.responses ++ [⟨.ok, 0x00000000#32⟩] } ∧ t.responses = s.responses

/-- R242: a reset while a command runs leaves the reset state and no response; the transport got some first
part of the command's calls, how many is not defined. The canvas holds what the host wrote meanwhile, and
nothing else of it or of the parameters changes. The first part is the model's free value, and the host's writes
during such a command are the model's list, log 9. -/
def Obligations.ResetInsideACommandCutsTheTrace : Prop :=
  ∀ (s : State) (w : Word) (writes : List Host.Cell) (rest : List HostInput),
    s.inputs = .resetDuring w writes :: rest → (∀ c ∈ writes, c.1 < s.canvasLen) →
    ∃ t full, runWord w { s with inputs := rest, racing := writes, tick := s.tick + 1 } = .next full ∧
      step s = .next t ∧ t.AtResetValues ∧ t.responses = s.responses ∧
      s.trace <+: t.trace ∧ t.trace <+: full.trace ∧
      t.canvas = s.canvas.writeAll writes ∧ t.racing = [] ∧ t.canvasLen = s.canvasLen ∧
      t.preTable = s.preTable ∧ t.inputs = rest

/-- R53, R54: what the host writes between commands is what the TAE's next canvas reads see. The host's
actions are the model's list, log 1 and log 7. -/
def Obligations.HostWriteIsSeenByCanvasReads : Prop :=
  ∀ (s : State) (idx : Nat) (v : Byte) (rest : List HostInput),
    s.inputs = .writeCanvas idx v :: rest → idx < s.canvasLen → s.canvas.wf →
    ∃ t, step s = .next t ∧ t.canvas.wf ∧
      (∀ j, canvasRead t j =
        if j = idx then some v else if j < s.canvasLen then some (s.canvas.read j) else none) ∧
      { t with canvas := s.canvas } = { s with inputs := rest, racing := [], tick := s.tick + 1 }

/-- U2: the host's writes are on indices below `CANVAS_LEN` only; the model refuses any other, between commands
and while a command runs (log 7). -/
def Obligations.HostWriteOutsideTheCanvasIsRefused : Prop :=
  (∀ (s : State) (idx : Nat) (v : Byte) (rest : List HostInput),
    s.inputs = .writeCanvas idx v :: rest → s.canvasLen ≤ idx → step s = .refused .canvasWriteOutside) ∧
  (∀ (s : State) (w : Word) (writes : List Host.Cell) (rest : List HostInput),
    s.inputs = .command w writes :: rest ∨ s.inputs = .resetDuring w writes :: rest →
    (∃ c ∈ writes, s.canvasLen ≤ c.1) → step s = .refused .canvasWriteOutside)

/-- R64: a read that races with a host write gives the old or a new byte, and every other read gives the byte
held. The new bytes are the model's `racing`, log 8. -/
def Obligations.CanvasReadGivesTheOldOrARacingByte : Prop :=
  ∀ (s : State) (idx : Nat),
    (idx < s.canvasLen → ∃ b, canvasRead s idx = some b ∧ (b = s.canvas.read idx ∨ (idx, b) ∈ s.racing)) ∧
    (idx < s.canvasLen → (∀ c ∈ s.racing, c.1 ≠ idx) → canvasRead s idx = some (s.canvas.read idx)) ∧
    (s.canvasLen ≤ idx → canvasRead s idx = none)

/-! ## Responses and faults -/

/-- R93: exactly one response to every command and to every word, with a code from 0 to 4. -/
def Obligations.EveryCommandGivesExactlyOneResponse : Prop :=
  (∀ (i : Instr) (s : State), ∃ t r, exec i s = .next t ∧ t.responses = s.responses ++ [r]) ∧
  (∀ (w : Word) (s : State), ∃ t r, runWord w s = .next t ∧ t.responses = s.responses ++ [r]) ∧
  (RespCode.num .ok = 0 ∧ RespCode.num (.raised .constructionError) = 1 ∧
    RespCode.num (.raised .boundsViolation) = 2 ∧ RespCode.num (.raised .transportFailure) = 3 ∧
    RespCode.num (.raised .illegalCommand) = 4) ∧
  (∀ r : Response, r.code.num ≤ 4 ∧ r.bits.toNat = r.code.num * 2 ^ 32 + r.data.toNat)

/-- R210's codes and sticky bits, and R219: `raise` sets the sticky bit of its fault, gives the response with
its code, and changes nothing else. -/
def Obligations.RaiseSetsTheStickyBitAndResponds : Prop :=
  ∀ (s : State) (k : FaultKind) (data : Word),
    s.raise k data = { s with
      status := s.status ||| (match k with
        | .constructionError => 0x0002#16
        | .boundsViolation => 0x0004#16
        | .transportFailure => 0x0008#16
        | .illegalCommand => 0x0010#16)
      responses := s.responses ++ [⟨.raised k, data⟩] } ∧
    (RespCode.raised k).num = (match k with
      | .constructionError => 1
      | .boundsViolation => 2
      | .transportFailure => 3
      | .illegalCommand => 4)

/-- R215's table, which the spec derives from the command rules: which command can raise what, when it is
executed. -/
def Obligations.EachCommandRaisesOnlyItsFaults : Prop :=
  ∀ (i : Instr) (s : State), ∃ t r, exec i s = .next t ∧ t.responses = s.responses ++ [r] ∧
    match i with
    | .nop | .rst | .tclr | .encode => r.code = .ok
    | .map _ _ | .tpix _ _ _ | .rdtp _ _ | .rdoo _ | .rdpw _ =>
      r.code = .ok ∨ r.code = .raised .boundsViolation
    | .canvas _ _ | .split => r.code = .ok ∨ r.code = .raised .constructionError
    | .loadt _ => r.code = .ok ∨ r.code = .raised .constructionError ∨ r.code = .raised .boundsViolation
    | .emit _ _ => r.code = .ok ∨ r.code = .raised .transportFailure
    | .render _ _ => r.code = .ok ∨ r.code = .raised .constructionError ∨
        r.code = .raised .boundsViolation ∨ r.code = .raised .transportFailure
    | .rdcr _ => r.code = .ok ∨ r.code = .raised .illegalCommand

/-- R23: a sticky bit, once set, stays set through every command but `RST`. -/
def Obligations.StickyBitsStaySetUntilRst : Prop :=
  ∀ (i : Instr) (s t : State) (k : FaultKind),
    i ≠ .rst → s.sticky k = true → exec i s = .next t → t.sticky k = true

/-- R23: "the bits record, they do not gate". Two states that differ only in the sticky bits `m` are led to
states that differ only in those, with the same response (but for the reading of `STATUS` itself); after `RST`
they do not differ at all. -/
def Obligations.StickyBitsDoNotGateAnyCommand : Prop :=
  ∀ (i : Instr) (s : State) (m : BitVec 16), m &&& 0x001E#16 = m →
    ∃ t u, exec i s = .next t ∧ exec i { s with status := s.status ||| m } = .next u ∧
      u.bound = t.bound ∧
      (i ≠ .rst → u.status = t.status ||| m) ∧ (i = .rst → u.status = t.status) ∧
      { u with status := t.status, responses := t.responses } = t ∧
      (i ≠ .rdcr 0 → u.responses = t.responses)

/-- R23: `BOUND` is set by a `CANVAS` that succeeds and cleared by `RST`, and by no other command. -/
def Obligations.BoundChangesOnlyByCanvasAndRst : Prop :=
  ∀ (i : Instr) (s t : State), exec i s = .next t →
    (t.bound = true → s.bound = false → ∃ w h, i = .canvas w h ∧ w ≠ 0 ∧ h ≠ 0) ∧
    (t.bound = false → s.bound = true → i = .rst)

/-- R22, R28, R29, R30: which commands write which register and buffer; `STATUS` is written by `CANVAS`, `RST`
and every command whose response is a fault. -/
def Obligations.OnlyTheListedCommandsWriteEachRegister : Prop :=
  ∀ (i : Instr) (s t : State), exec i s = .next t →
    (t.status ≠ s.status → i.mnemonic ∈ ["CANVAS", "RST"] ∨
      ∃ k d, t.responses = s.responses ++ [⟨.raised k, d⟩]) ∧
    (t.canvasW ≠ s.canvasW ∨ t.canvasH ≠ s.canvasH → i.mnemonic ∈ ["CANVAS", "RST"]) ∧
    (t.tileIx ≠ s.tileIx → i.mnemonic ∈ ["CANVAS", "LOADT", "EMIT", "RENDER", "RST"]) ∧
    (t.tile ≠ s.tile → i.mnemonic ∈ ["TCLR", "TPIX", "LOADT", "RENDER", "RST"]) ∧
    (t.onoff ≠ s.onoff ∨ t.pwm ≠ s.pwm → i.mnemonic ∈ ["ENCODE", "RENDER", "RST"])

/-- R53: the TAE reads the canvas and never writes it, whatever it executes; nor does a command change the
host's other parts (its pending actions, its racing writes) or the platform's parameters. -/
def Obligations.NoCommandWritesTheCanvas : Prop :=
  ∀ (i : Instr) (s : State), ∃ t, exec i s = .next t ∧
    (∀ idx, t.canvas.read idx = s.canvas.read idx) ∧ t.canvas = s.canvas ∧ t.canvasLen = s.canvasLen ∧
    t.racing = s.racing ∧ t.inputs = s.inputs ∧ t.preTable = s.preTable ∧ t.tick = s.tick

/-- R59, R63: the trace only grows, and only `EMIT` and `RENDER` make it grow. -/
def Obligations.OnlyEmitAndRenderUseTheTransport : Prop :=
  ∀ (i : Instr) (s : State), ∃ t es, exec i s = .next t ∧ t.trace = s.trace ++ es ∧
    t.answers = s.answers.drop es.length ∧ (es ≠ [] → i.mnemonic = "EMIT" ∨ i.mnemonic = "RENDER")

/-! ## The invariant -/

/-- The invariant holds after reset. -/
def Obligations.InvariantHoldsAfterReset : Prop := State.reset.Inv

/-- The invariant (R23's reserved bits, R153, R134, R136, the canonical canvas) is kept by every step, of
every state that has it. -/
def Obligations.InvariantIsKeptByEveryStep : Prop :=
  ∀ s t : State, s.Inv → step s = .next t → t.Inv

/-! ## Mapper -/

/-- R119: `MAP` inside the tile answers the derived addresses, outside it BoundsViolation. -/
def Obligations.MapAnswersThePhysicalAddress : Prop :=
  ∀ (x y : Nat) (s : State),
    (x < 32 → y < 8 → decode (wordXY 0x10#8 x y) = .command (.map x y)) ∧
    (x < 24 ∧ y < 5 → exec (.map x y) s = .next { s with
      responses := s.responses ++ [⟨.ok, BitVec.ofNat 32
        ((5 * x + y) + 2 ^ 8 * (2 * ((5 * x + y) / 10) + (5 * x + y) % 10 / 8)
          + 2 ^ 16 * ((5 * x + y) % 10) + 2 ^ 20 * ((5 * x + y) % 10 % 8))⟩] }) ∧
    (¬ (x < 24 ∧ y < 5) → exec (.map x y) s = .next { s with
      status := s.status ||| 0x0004#16
      responses := s.responses ++ [⟨.raised .boundsViolation, encode (.map x y)⟩] })

/-- R120, a derivation of the spec: the mapping is injective, and the bits no pixel maps to are bits 7:2 of the
odd bytes. -/
def Obligations.MapperIsInjective : Prop :=
  (∀ x < 24, ∀ y < 5, ∀ x' < 24, ∀ y' < 5,
    ((registerIndex (ledIndex x y) = registerIndex (ledIndex x' y') ∧
        bitInByte (ledIndex x y) = bitInByte (ledIndex x' y')) ∨
      pwmSlot (ledIndex x y) = pwmSlot (ledIndex x' y')) → x = x' ∧ y = y') ∧
  (∀ r < 24, ∀ j < 8,
    (∃ x < 24, ∃ y < 5, registerIndex (ledIndex x y) = r ∧ bitInByte (ledIndex x y) = j) ↔
      (r % 2 = 0 ∨ j < 2))

/-- R116, a derivation of the spec: the inverse, from an LED to its pixel and from a mapped bit to its LED. -/
def Obligations.MapperInverse : Prop :=
  (∀ led < 120, led / 5 < 24 ∧ led % 5 < 5 ∧ ledIndex (led / 5) (led % 5) = led) ∧
  (∀ x < 24, ∀ y < 5, ledIndex x y / 5 = x ∧ ledIndex x y % 5 = y) ∧
  (∀ r < 24, ∀ j < 8, (r % 2 = 1 → j < 2) → ∀ led < 120,
    (registerIndex led = r ∧ bitInByte led = j ↔ led = r / 2 * 10 + r % 2 * 8 + j))

/-! ## Packer -/

/-- R130: `TCLR` turns every pixel off and changes nothing else. -/
def Obligations.TclrClearsTheTile : Prop :=
  decode (wordZ 0x20#8) = .command .tclr ∧
  ∀ s : State, ∃ t, exec .tclr s = .next t ∧
    (∀ x < 24, ∀ y < 5, readPixel t.tile x y = some 0x00#8) ∧
    { t with tile := s.tile } = { s with responses := s.responses ++ [⟨.ok, 0x00000000#32⟩] }

/-- R131: `TPIX` writes one pixel and no other, or raises BoundsViolation and writes none. -/
def Obligations.TpixWritesOnePixel : Prop :=
  ∀ (x y v : Nat) (s : State),
    (x < 32 → y < 8 → v < 256 → decode (wordP 0x21#8 x y v) = .command (.tpix x y v)) ∧
    (x < 24 ∧ y < 5 → ∃ t, exec (.tpix x y v) s = .next t ∧
      (∀ x' y', readPixel t.tile x' y' =
        if x' = x ∧ y' = y then some (BitVec.ofNat 8 v) else readPixel s.tile x' y') ∧
      { t with tile := s.tile } = { s with responses := s.responses ++ [⟨.ok, 0x00000000#32⟩] }) ∧
    (¬ (x < 24 ∧ y < 5) → exec (.tpix x y v) s = .next { s with
      status := s.status ||| 0x0004#16
      responses := s.responses ++ [⟨.raised .boundsViolation, encode (.tpix x y v)⟩] })

/-- R133 and R134, derivations of the spec from R132: the on/off bitmap after `ENCODE`, bit by bit. -/
def Obligations.EncodeOnOffInClosedForm : Prop :=
  ∀ s : State, ∃ t, exec .encode s = .next t ∧ ∀ k < 12, ∃ low high,
    readOnOff t.onoff (2 * k) = some low ∧ readOnOff t.onoff (2 * k + 1) = some high ∧
    (∀ j < 8, low.getLsbD j = lit s.tile (10 * k + j)) ∧
    (∀ j < 2, high.getLsbD j = lit s.tile (10 * k + 8 + j)) ∧
    (∀ j, 2 ≤ j → j < 8 → high.getLsbD j = false)

/-- R136, with R135 (a derivation of the spec from R132): the brightness table after `ENCODE`, slot by slot; and
what `ENCODE` leaves alone. -/
def Obligations.EncodePwmInClosedForm : Prop :=
  ∀ s : State, ∃ t, exec .encode s = .next t ∧
    (∀ n < 120, readPwm t.pwm n = readPixel s.tile (n / 5) (n % 5)) ∧
    (∀ n, 120 ≤ n → n < 131 → readPwm t.pwm n = some 0x00#8) ∧
    { t with onoff := s.onoff, pwm := s.pwm } =
      { s with responses := s.responses ++ [⟨.ok, 0x00000000#32⟩] }

/-- R137, a derivation of the spec: `ENCODE` depends on `TILE` alone, repeating it changes nothing, and the order
in which the pixels are visited does not matter. -/
def Obligations.EncodeIsPureAndOrderFree : Prop :=
  (∀ s s' : State, s.tile = s'.tile → ∃ t t', exec .encode s = .next t ∧ exec .encode s' = .next t' ∧
    t.onoff = t'.onoff ∧ t.pwm = t'.pwm) ∧
  (∀ s : State, ∃ t u, exec .encode s = .next t ∧ exec .encode t = .next u ∧
    { u with responses := t.responses } = t) ∧
  (∀ (tile : Tile) (order : List (Fin 24 × Fin 5)), order.Perm tilePixels →
    order.foldl (packPixel tile) (blankOnOff, blankPwm) = encodeTile tile)

/-- R140, a derivation of the spec: an all-off tile and an all-on tile. -/
def Obligations.EncodeOfAllOffAndAllOnTiles : Prop :=
  (∀ s : State, (∀ x < 24, ∀ y < 5, readPixel s.tile x y = some 0x00#8) → ∃ t, exec .encode s = .next t ∧
    (∀ i < 24, readOnOff t.onoff i = some 0x00#8) ∧ (∀ i < 131, readPwm t.pwm i = some 0x00#8)) ∧
  (∀ s : State, (∀ x < 24, ∀ y < 5, readPixel s.tile x y ≠ some 0x00#8) → ∃ t, exec .encode s = .next t ∧
    (∀ k < 12, readOnOff t.onoff (2 * k) = some 0xFF#8 ∧ readOnOff t.onoff (2 * k + 1) = some 0x03#8) ∧
    (∀ n < 120, readPwm t.pwm n = readPixel s.tile (n / 5) (n % 5)) ∧
    (∀ n, 120 ≤ n → n < 131 → readPwm t.pwm n = some 0x00#8))

/-! ## Partitioner -/

/-- R151, R152: `CANVAS` binds nonzero dimensions and raises ConstructionError on a zero, keeping the earlier
binding. -/
def Obligations.CanvasBindsOrRaisesConstructionError : Prop :=
  ∀ (w h : Nat) (s : State),
    (w < 65536 → h < 256 → decode (wordC 0x30#8 w h) = .command (.canvas w h)) ∧
    (w ≠ 0 ∧ h ≠ 0 → exec (.canvas w h) s = .next { s with
      canvasW := BitVec.ofNat 16 w
      canvasH := BitVec.ofNat 8 h
      status := s.status ||| 0x0001#16
      tileIx := 0x0000#16
      responses := s.responses ++ [⟨.ok, BitVec.ofNat 32 (w / 24)⟩] }) ∧
    (w = 0 ∨ h = 0 → exec (.canvas w h) s = .next { s with
      status := s.status ||| 0x0002#16
      responses := s.responses ++ [⟨.raised .constructionError, encode (.canvas w h)⟩] })

/-- R154: `SPLIT` answers the tile count and the dropped columns. -/
def Obligations.SplitAnswersTilesAndDroppedColumns : Prop :=
  decode (wordZ 0x31#8) = .command .split ∧
  ∀ s : State,
    (s.bound = true → exec .split s = .next { s with
      responses := s.responses ++ [⟨.ok, BitVec.ofNat 32
        (s.canvasW.toNat / 24 + 2 ^ 16 * (s.canvasW.toNat % 24))⟩] }) ∧
    (s.bound = false → exec .split s = .next { s with
      status := s.status ||| 0x0002#16
      responses := s.responses ++ [⟨.raised .constructionError, 0x31000000#32⟩] })

/-- R211: the two cases of ConstructionError and no other, with the command word as data; in the second
case nothing else changes (R153). -/
def Obligations.ConstructionErrorCases : Prop :=
  (∀ (s : State) (i : Instr), ∃ t r, exec i s = .next t ∧ t.responses = s.responses ++ [r] ∧
    (r.code = .raised .constructionError ↔
      (∃ w h, i = .canvas w h ∧ (w = 0 ∨ h = 0)) ∨
      (s.bound = false ∧ i.mnemonic ∈ ["SPLIT", "LOADT", "RENDER"])) ∧
    (r.code = .raised .constructionError → r.data = encode i)) ∧
  (∀ (s : State) (i : Instr), s.bound = false → i.mnemonic ∈ ["SPLIT", "LOADT", "RENDER"] →
    exec i s = .next { s with
      status := s.status ||| 0x0002#16
      responses := s.responses ++ [⟨.raised .constructionError, encode i⟩] })

/-- R157: `LOADT`, with its faults in the order tested; a fault leaves `TILE` and `TILE_IX` unchanged. -/
def Obligations.LoadtCopiesTheWholeSliceOrNothing : Prop :=
  ∀ (t : Nat) (s : State),
    (t < 65536 → decode (wordT 0x32#8 t) = .command (.loadt t)) ∧
    (s.bound = false → exec (.loadt t) s = .next { s with
      status := s.status ||| 0x0002#16
      responses := s.responses ++ [⟨.raised .constructionError, encode (.loadt t)⟩] }) ∧
    (s.bound = true →
      (s.canvasW.toNat / 24 ≤ t ∨ 5 < s.canvasH.toNat ∨
        (∃ x < 24, ∃ y < 5, y < s.canvasH.toNat ∧ s.canvasLen ≤ 24 * t + x + y * s.canvasW.toNat)) →
      exec (.loadt t) s = .next { s with
        status := s.status ||| 0x0004#16
        responses := s.responses ++ [⟨.raised .boundsViolation, encode (.loadt t)⟩] }) ∧
    (s.bound = true → t < s.canvasW.toNat / 24 → s.canvasH.toNat ≤ 5 →
      (∀ x < 24, ∀ y < 5, y < s.canvasH.toNat → 24 * t + x + y * s.canvasW.toNat < s.canvasLen) →
      ∃ u, exec (.loadt t) s = .next u ∧
        (∀ x < 24, ∀ y < 5, readPixel u.tile x y =
          if y < s.canvasH.toNat then canvasRead s (24 * t + x + y * s.canvasW.toNat) else some 0x00#8) ∧
        { u with tile := s.tile } = { s with
          tileIx := BitVec.ofNat 16 t
          responses := s.responses ++ [⟨.ok, BitVec.ofNat 32 (24 * t)⟩] })

/-- R158, a derivation of the spec, on a canvas the host set up as R245 asks: no read falls outside it, and the slice is the canvas's. -/
def Obligations.LoadtOfAReadyCanvasIsTheSlice : Prop :=
  ∀ (t : Nat) (s : State), CanvasReady s → t < s.canvasW.toNat / 24 →
    ∃ u, exec (.loadt t) s = .next u ∧
      (∀ x < 24, ∀ y < 5, readPixel u.tile x y = some
        (if y < s.canvasH.toNat then s.canvas.read (24 * t + x + y * s.canvasW.toNat) else 0x00#8)) ∧
      { u with tile := s.tile } = { s with
        tileIx := BitVec.ofNat 16 t
        responses := s.responses ++ [⟨.ok, BitVec.ofNat 32 (24 * t)⟩] }

/-! ## Emission -/

/-- R170: `EMIT` sends on/off, blink, brightness, each after its `PRE`, when every call is answered `ok`, and
responds as R173 says. The answers are the environment's, log 4; `PRE` is the platform's, log 5. -/
def Obligations.EmitSendsTheThreeTablesInOrder : Prop :=
  ∀ (t : Nat) (b : Bool) (s : State),
    (t < 65536 → decode (wordB 0x40#8 b t) = .command (.emit t b)) ∧
    ((∀ m < (tileSends s (BitVec.ofNat 16 t) b s.onoff s.pwm).length, answerAt s m = .ok) →
    exec (.emit t b) s = .next { s with
      tileIx := BitVec.ofNat 16 t
      trace := s.trace ++ answeredOk (tileSends s (BitVec.ofNat 16 t) b s.onoff s.pwm)
      answers := s.answers.drop (tileSends s (BitVec.ofNat 16 t) b s.onoff s.pwm).length
      responses := s.responses ++ [⟨.ok, 0x00000000#32⟩] })

/-- R174, R213: the first call answered `fail` is the last one issued; the sticky bit, and the tile index and
the table kind in the response. -/
def Obligations.EmitStopsAtTheFirstFailingCall : Prop :=
  ∀ (t : Nat) (b : Bool) (s : State) (m : Nat),
    m < (tileSends s (BitVec.ofNat 16 t) b s.onoff s.pwm).length →
    (∀ j < m, answerAt s j = .ok) → answerAt s m = .fail →
    exec (.emit t b) s = .next { s with
      tileIx := BitVec.ofNat 16 t
      trace := s.trace ++ answeredOk ((tileSends s (BitVec.ofNat 16 t) b s.onoff s.pwm).take m)
        ++ answeredFail (((tileSends s (BitVec.ofNat 16 t) b s.onoff s.pwm).drop m).take 1)
      answers := s.answers.drop (m + 1)
      status := s.status ||| 0x0008#16
      responses := s.responses ++ [⟨.raised .transportFailure,
        BitVec.ofNat 32 (2 ^ 16 * sendKind s (BitVec.ofNat 16 t) m + t % 2 ^ 16)⟩] }

/-- R175, a derivation of the spec: a tile that is sent completely costs the `PRE` writes and 179 slot writes. -/
def Obligations.EmitCostsThePreWritesAnd179SlotWrites : Prop :=
  ∀ (t : Nat) (b : Bool) (s : State) (pre : Nat),
    pre = (preWrites s .onoff (BitVec.ofNat 16 t)).length + (preWrites s .blink (BitVec.ofNat 16 t)).length
      + (preWrites s .pwm (BitVec.ofNat 16 t)).length →
    (∀ m < pre + 179, answerAt s m = .ok) →
    ∃ u es, exec (.emit t b) s = .next u ∧ u.trace = s.trace ++ es ∧
      (es.filter fun e => isRegCall e.call).length = pre ∧
      (es.filter fun e => !isRegCall e.call).length = 179

/-- R138: with `b = 0` the `PWM` buffer is neither read nor changed. -/
def Obligations.EmitWithoutBrightnessIgnoresPwm : Prop :=
  ∀ (t : Nat) (s : State) (pwm : Pwm), ∃ u, exec (.emit t false) s = .next u ∧
    exec (.emit t false) { s with pwm := pwm } = .next { u with pwm := pwm } ∧ u.pwm = s.pwm

/-- R178, a derivation of the spec: a canvas narrower than one tile renders nothing. -/
def Obligations.RenderOfNoTilesSendsNothing : Prop :=
  ∀ (b : Bool) (clip : Nat) (s : State), s.bound = true → s.canvasW.toNat < 24 →
    exec (.render b clip) s = .next { s with responses := s.responses ++ [⟨.ok, 0x00000000#32⟩] }

/-- R156, R176: a canvas taller than the tile faults at tile 0, before any transport call. -/
def Obligations.RenderOfATallCanvasFaultsAtOnce : Prop :=
  ∀ (b : Bool) (clip : Nat) (s : State), s.bound = true → 24 ≤ s.canvasW.toNat → 5 < s.canvasH.toNat →
    exec (.render b clip) s = .next { s with
      tileIx := 0x0000#16
      status := s.status ||| 0x0004#16
      responses := s.responses ++ [⟨.raised .boundsViolation, encode (.render b clip)⟩] }

/-- R63, R176: `RENDER` of a ready canvas, every call answered `ok`: every tile in turn, left to right, each
the encoding of its slice; the buffers hold the last tile. The word of opcode 0x41 has `b` and `clip` where format
B has them (R86). -/
def Obligations.RenderSendsEveryTileInOrder : Prop :=
  ∀ (b : Bool) (clip : Nat) (s : State),
    (clip < 65536 → decode (wordB 0x41#8 b clip) = .command (.render b clip)) ∧
    (CanvasReady s → 24 ≤ s.canvasW.toNat →
    (∀ m < (rendersBefore s b (s.canvasW.toNat / 24)).length, answerAt s m = .ok) →
    exec (.render b clip) s = .next { s with
      tileIx := BitVec.ofNat 16 (s.canvasW.toNat / 24 - 1)
      tile := canvasSlice s (s.canvasW.toNat / 24 - 1)
      onoff := (encodeTile (canvasSlice s (s.canvasW.toNat / 24 - 1))).1
      pwm := (encodeTile (canvasSlice s (s.canvasW.toNat / 24 - 1))).2
      trace := s.trace ++ answeredOk (rendersBefore s b (s.canvasW.toNat / 24))
      answers := s.answers.drop (rendersBefore s b (s.canvasW.toNat / 24)).length
      responses := s.responses ++ [⟨.ok, BitVec.ofNat 32 (s.canvasW.toNat / 24)⟩] })

/-- R174, R216, R220: `RENDER` whose call `m` of tile `k` is the first answered `fail`: tiles 0 to `k - 1` sent in
full, tile `k` up to the failing call, the buffers and `TILE_IX` hold tile `k`. Only the tiles up to `k` need be
readable: the failure comes before a BoundsViolation that a later tile would raise. -/
def Obligations.RenderStopsAtTheFirstFailingCall : Prop :=
  ∀ (b : Bool) (clip : Nat) (s : State) (k m : Nat),
    s.bound = true → s.racing = [] → s.canvasH.toNat ≤ 5 → k < s.canvasW.toNat / 24 →
    (∀ t ≤ k, ∀ x < 24, ∀ y < s.canvasH.toNat, 24 * t + x + y * s.canvasW.toNat < s.canvasLen) →
    m < (renderSends s b k).length →
    (∀ j < (rendersBefore s b k).length + m, answerAt s j = .ok) →
    answerAt s ((rendersBefore s b k).length + m) = .fail →
    exec (.render b clip) s = .next { s with
      tileIx := BitVec.ofNat 16 k
      tile := canvasSlice s k
      onoff := (encodeTile (canvasSlice s k)).1
      pwm := (encodeTile (canvasSlice s k)).2
      trace := s.trace ++ answeredOk (rendersBefore s b k) ++ answeredOk ((renderSends s b k).take m)
        ++ answeredFail (((renderSends s b k).drop m).take 1)
      answers := s.answers.drop ((rendersBefore s b k).length + m + 1)
      status := s.status ||| 0x0008#16
      responses := s.responses ++ [⟨.raised .transportFailure,
        BitVec.ofNat 32 (2 ^ 16 * sendKind s (BitVec.ofNat 16 k) m + k)⟩] }

/-- R220: `RENDER` whose tile `k` is the first with a read outside the attached memory: tiles 0 to `k - 1` sent
in full, `TILE_IX` is `k`, the buffers hold tile `k - 1`, or are unchanged when `k` is 0. -/
def Obligations.RenderStopsAtTheFirstUnreadableTile : Prop :=
  ∀ (b : Bool) (clip : Nat) (s : State) (k : Nat),
    s.bound = true → s.racing = [] → s.canvasH.toNat ≤ 5 → k < s.canvasW.toNat / 24 →
    (∀ t < k, ∀ x < 24, ∀ y < s.canvasH.toNat, 24 * t + x + y * s.canvasW.toNat < s.canvasLen) →
    (∃ x < 24, ∃ y < s.canvasH.toNat, s.canvasLen ≤ 24 * k + x + y * s.canvasW.toNat) →
    (∀ j < (rendersBefore s b k).length, answerAt s j = .ok) →
    exec (.render b clip) s = .next { s with
      tileIx := BitVec.ofNat 16 k
      tile := if k = 0 then s.tile else canvasSlice s (k - 1)
      onoff := if k = 0 then s.onoff else (encodeTile (canvasSlice s (k - 1))).1
      pwm := if k = 0 then s.pwm else (encodeTile (canvasSlice s (k - 1))).2
      trace := s.trace ++ answeredOk (rendersBefore s b k)
      answers := s.answers.drop (rendersBefore s b k).length
      status := s.status ||| 0x0004#16
      responses := s.responses ++ [⟨.raised .boundsViolation, encode (.render b clip)⟩] }

/-- R101, R176: a render is `LOADT t`, `ENCODE`, `EMIT t, b` for each tile in turn: the same trace and the same
state, but for the responses. -/
def Obligations.RenderIsLoadEncodeEmitTileByTile : Prop :=
  ∀ (b : Bool) (clip : Nat) (s : State), CanvasReady s →
    (∀ m < (rendersBefore s b (s.canvasW.toNat / 24)).length, answerAt s m = .ok) →
    ∃ u v, exec (.render b clip) s = .next u ∧
      tileByTile b (List.range (s.canvasW.toNat / 24)) s = .next v ∧
      { u with responses := v.responses } = v

/-- R177: the clip field has no effect; it shows only in the command word that a fault records. -/
def Obligations.ClipFieldHasNoEffect : Prop :=
  ∀ (b : Bool) (clip clip' : Nat) (s : State), ∃ t t' r r',
    exec (.render b clip) s = .next t ∧ exec (.render b clip') s = .next t' ∧
    { t with responses := t'.responses } = t' ∧
    t.responses = s.responses ++ [r] ∧ t'.responses = s.responses ++ [r'] ∧ r.code = r'.code ∧
    (r.code = .ok ∨ r.code = .raised .transportFailure → r.data = r'.data)

/-! ## System and read-back -/

/-- R190: `NOP` responds and does nothing. -/
def Obligations.NopDoesNothing : Prop :=
  decode (wordZ 0x00#8) = .command .nop ∧
  ∀ s : State, exec .nop s = .next { s with responses := s.responses ++ [⟨.ok, 0x00000000#32⟩] }

/-- R193: `RDCR` of the five registers and of a reserved number. Bits 15:5 of `STATUS` read as zero (R23,
log 11). -/
def Obligations.RdcrReadsTheControlRegisters : Prop :=
  (∀ n < 256, decode (wordI 0x50#8 n) = .command (.rdcr n)) ∧
  ∀ s : State,
    exec (.rdcr 0) s = .next { s with
      responses := s.responses ++ [⟨.ok, BitVec.ofNat 32 (s.status &&& 0x001F#16).toNat⟩] } ∧
    exec (.rdcr 1) s = .next { s with
      responses := s.responses ++ [⟨.ok, BitVec.ofNat 32 s.canvasW.toNat⟩] } ∧
    exec (.rdcr 2) s = .next { s with
      responses := s.responses ++ [⟨.ok, BitVec.ofNat 32 s.canvasH.toNat⟩] } ∧
    exec (.rdcr 3) s = .next { s with
      responses := s.responses ++ [⟨.ok, BitVec.ofNat 32 (s.canvasW.toNat / 24)⟩] } ∧
    exec (.rdcr 4) s = .next { s with
      responses := s.responses ++ [⟨.ok, BitVec.ofNat 32 s.tileIx.toNat⟩] } ∧
    ∀ n, 5 ≤ n → exec (.rdcr n) s = .next { s with
      status := s.status ||| 0x0010#16
      responses := s.responses ++ [⟨.raised .illegalCommand, encode (.rdcr n)⟩] }

/-- R194: `RDTP` reads one pixel. -/
def Obligations.RdtpReadsOnePixel : Prop :=
  ∀ (x y : Nat) (s : State),
    (x < 32 → y < 8 → decode (wordXY 0x51#8 x y) = .command (.rdtp x y)) ∧
    (∀ (hx : x < 24) (hy : y < 5), exec (.rdtp x y) s = .next { s with
      responses := s.responses ++ [⟨.ok, BitVec.ofNat 32 (s.tile[x][y]).toNat⟩] }) ∧
    (¬ (x < 24 ∧ y < 5) → exec (.rdtp x y) s = .next { s with
      status := s.status ||| 0x0004#16
      responses := s.responses ++ [⟨.raised .boundsViolation, encode (.rdtp x y)⟩] })

/-- R195: `RDOO` reads one byte of the on/off bitmap. -/
def Obligations.RdooReadsOneByte : Prop :=
  ∀ (i : Nat) (s : State),
    (i < 256 → decode (wordI 0x52#8 i) = .command (.rdoo i)) ∧
    (∀ hi : i < 24, exec (.rdoo i) s = .next { s with
      responses := s.responses ++ [⟨.ok, BitVec.ofNat 32 (s.onoff[i]).toNat⟩] }) ∧
    (24 ≤ i → exec (.rdoo i) s = .next { s with
      status := s.status ||| 0x0004#16
      responses := s.responses ++ [⟨.raised .boundsViolation, encode (.rdoo i)⟩] })

/-- R196: `RDPW` reads one byte of the brightness table. -/
def Obligations.RdpwReadsOneByte : Prop :=
  ∀ (i : Nat) (s : State),
    (i < 256 → decode (wordI 0x53#8 i) = .command (.rdpw i)) ∧
    (∀ hi : i < 131, exec (.rdpw i) s = .next { s with
      responses := s.responses ++ [⟨.ok, BitVec.ofNat 32 (s.pwm[i]).toNat⟩] }) ∧
    (131 ≤ i → exec (.rdpw i) s = .next { s with
      status := s.status ||| 0x0004#16
      responses := s.responses ++ [⟨.raised .boundsViolation, encode (.rdpw i)⟩] })

/-- R194's first corner case: a pixel written is the pixel read back. -/
def Obligations.PixelWrittenIsReadBack : Prop :=
  ∀ (x y v : Nat) (s : State), x < 24 → y < 5 → ∃ t u,
    exec (.tpix x y v) s = .next t ∧ exec (.rdtp x y) t = .next u ∧
    u.responses = t.responses ++ [⟨.ok, BitVec.ofNat 32 (v % 256)⟩]
end

