-- ==== Sys2Proof/Laws/State.lean ====
section
/-!
SUPPORT. One lemma per field per named update of the state, so that no proof unfolds a record update.
-/

namespace Sys2Proof.Machine

variable (s : State)

@[simp] theorem respond_status (c : RespCode) (d : Word) : (s.respond c d).status = s.status := rfl
@[simp] theorem respond_canvasW (c : RespCode) (d : Word) : (s.respond c d).canvasW = s.canvasW := rfl
@[simp] theorem respond_canvasH (c : RespCode) (d : Word) : (s.respond c d).canvasH = s.canvasH := rfl
@[simp] theorem respond_tileIx (c : RespCode) (d : Word) : (s.respond c d).tileIx = s.tileIx := rfl
@[simp] theorem respond_tile (c : RespCode) (d : Word) : (s.respond c d).tile = s.tile := rfl
@[simp] theorem respond_onoff (c : RespCode) (d : Word) : (s.respond c d).onoff = s.onoff := rfl
@[simp] theorem respond_pwm (c : RespCode) (d : Word) : (s.respond c d).pwm = s.pwm := rfl
@[simp] theorem respond_canvas (c : RespCode) (d : Word) : (s.respond c d).canvas = s.canvas := rfl
@[simp] theorem respond_canvasLen (c : RespCode) (d : Word) : (s.respond c d).canvasLen = s.canvasLen := rfl
@[simp] theorem respond_racing (c : RespCode) (d : Word) : (s.respond c d).racing = s.racing := rfl
@[simp] theorem respond_inputs (c : RespCode) (d : Word) : (s.respond c d).inputs = s.inputs := rfl
@[simp] theorem respond_responses (c : RespCode) (d : Word) : (s.respond c d).responses = s.responses ++ [⟨c, d⟩] := rfl
@[simp] theorem respond_trace (c : RespCode) (d : Word) : (s.respond c d).trace = s.trace := rfl
@[simp] theorem respond_preTable (c : RespCode) (d : Word) : (s.respond c d).preTable = s.preTable := rfl
@[simp] theorem respond_answers (c : RespCode) (d : Word) : (s.respond c d).answers = s.answers := rfl
@[simp] theorem respond_tick (c : RespCode) (d : Word) : (s.respond c d).tick = s.tick := rfl

@[simp] theorem raise_status (k : FaultKind) (d : Word) : (s.raise k d).status = setStatusBit s.status k.code := rfl
@[simp] theorem raise_canvasW (k : FaultKind) (d : Word) : (s.raise k d).canvasW = s.canvasW := rfl
@[simp] theorem raise_canvasH (k : FaultKind) (d : Word) : (s.raise k d).canvasH = s.canvasH := rfl
@[simp] theorem raise_tileIx (k : FaultKind) (d : Word) : (s.raise k d).tileIx = s.tileIx := rfl
@[simp] theorem raise_tile (k : FaultKind) (d : Word) : (s.raise k d).tile = s.tile := rfl
@[simp] theorem raise_onoff (k : FaultKind) (d : Word) : (s.raise k d).onoff = s.onoff := rfl
@[simp] theorem raise_pwm (k : FaultKind) (d : Word) : (s.raise k d).pwm = s.pwm := rfl
@[simp] theorem raise_canvas (k : FaultKind) (d : Word) : (s.raise k d).canvas = s.canvas := rfl
@[simp] theorem raise_canvasLen (k : FaultKind) (d : Word) : (s.raise k d).canvasLen = s.canvasLen := rfl
@[simp] theorem raise_racing (k : FaultKind) (d : Word) : (s.raise k d).racing = s.racing := rfl
@[simp] theorem raise_inputs (k : FaultKind) (d : Word) : (s.raise k d).inputs = s.inputs := rfl
@[simp] theorem raise_responses (k : FaultKind) (d : Word) : (s.raise k d).responses = s.responses ++ [⟨.raised k, d⟩] := rfl
@[simp] theorem raise_trace (k : FaultKind) (d : Word) : (s.raise k d).trace = s.trace := rfl
@[simp] theorem raise_preTable (k : FaultKind) (d : Word) : (s.raise k d).preTable = s.preTable := rfl
@[simp] theorem raise_answers (k : FaultKind) (d : Word) : (s.raise k d).answers = s.answers := rfl
@[simp] theorem raise_tick (k : FaultKind) (d : Word) : (s.raise k d).tick = s.tick := rfl

@[simp] theorem resetTae_status : (s.resetTae).status = 0x0000#16 := rfl
@[simp] theorem resetTae_canvasW : (s.resetTae).canvasW = 0#16 := rfl
@[simp] theorem resetTae_canvasH : (s.resetTae).canvasH = 0#8 := rfl
@[simp] theorem resetTae_tileIx : (s.resetTae).tileIx = 0#16 := rfl
@[simp] theorem resetTae_tile : (s.resetTae).tile = blankTile := rfl
@[simp] theorem resetTae_onoff : (s.resetTae).onoff = blankOnOff := rfl
@[simp] theorem resetTae_pwm : (s.resetTae).pwm = blankPwm := rfl
@[simp] theorem resetTae_canvas : (s.resetTae).canvas = s.canvas := rfl
@[simp] theorem resetTae_canvasLen : (s.resetTae).canvasLen = s.canvasLen := rfl
@[simp] theorem resetTae_racing : (s.resetTae).racing = s.racing := rfl
@[simp] theorem resetTae_inputs : (s.resetTae).inputs = s.inputs := rfl
@[simp] theorem resetTae_responses : (s.resetTae).responses = s.responses := rfl
@[simp] theorem resetTae_trace : (s.resetTae).trace = s.trace := rfl
@[simp] theorem resetTae_preTable : (s.resetTae).preTable = s.preTable := rfl
@[simp] theorem resetTae_answers : (s.resetTae).answers = s.answers := rfl
@[simp] theorem resetTae_tick : (s.resetTae).tick = s.tick := rfl

@[simp] theorem encodeBuffers_status : (s.encodeBuffers).status = s.status := by simp only [State.encodeBuffers]
@[simp] theorem encodeBuffers_canvasW : (s.encodeBuffers).canvasW = s.canvasW := by simp only [State.encodeBuffers]
@[simp] theorem encodeBuffers_canvasH : (s.encodeBuffers).canvasH = s.canvasH := by simp only [State.encodeBuffers]
@[simp] theorem encodeBuffers_tileIx : (s.encodeBuffers).tileIx = s.tileIx := by simp only [State.encodeBuffers]
@[simp] theorem encodeBuffers_tile : (s.encodeBuffers).tile = s.tile := by simp only [State.encodeBuffers]
@[simp] theorem encodeBuffers_onoff : (s.encodeBuffers).onoff = (encodeTile s.tile).1 := by simp only [State.encodeBuffers]
@[simp] theorem encodeBuffers_pwm : (s.encodeBuffers).pwm = (encodeTile s.tile).2 := by simp only [State.encodeBuffers]
@[simp] theorem encodeBuffers_canvas : (s.encodeBuffers).canvas = s.canvas := by simp only [State.encodeBuffers]
@[simp] theorem encodeBuffers_canvasLen : (s.encodeBuffers).canvasLen = s.canvasLen := by simp only [State.encodeBuffers]
@[simp] theorem encodeBuffers_racing : (s.encodeBuffers).racing = s.racing := by simp only [State.encodeBuffers]
@[simp] theorem encodeBuffers_inputs : (s.encodeBuffers).inputs = s.inputs := by simp only [State.encodeBuffers]
@[simp] theorem encodeBuffers_responses : (s.encodeBuffers).responses = s.responses := by simp only [State.encodeBuffers]
@[simp] theorem encodeBuffers_trace : (s.encodeBuffers).trace = s.trace := by simp only [State.encodeBuffers]
@[simp] theorem encodeBuffers_preTable : (s.encodeBuffers).preTable = s.preTable := by simp only [State.encodeBuffers]
@[simp] theorem encodeBuffers_answers : (s.encodeBuffers).answers = s.answers := by simp only [State.encodeBuffers]
@[simp] theorem encodeBuffers_tick : (s.encodeBuffers).tick = s.tick := by simp only [State.encodeBuffers]

@[simp] theorem sent_status (es : List TxEvent) : (s.sent es).status = s.status := rfl
@[simp] theorem sent_canvasW (es : List TxEvent) : (s.sent es).canvasW = s.canvasW := rfl
@[simp] theorem sent_canvasH (es : List TxEvent) : (s.sent es).canvasH = s.canvasH := rfl
@[simp] theorem sent_tileIx (es : List TxEvent) : (s.sent es).tileIx = s.tileIx := rfl
@[simp] theorem sent_tile (es : List TxEvent) : (s.sent es).tile = s.tile := rfl
@[simp] theorem sent_onoff (es : List TxEvent) : (s.sent es).onoff = s.onoff := rfl
@[simp] theorem sent_pwm (es : List TxEvent) : (s.sent es).pwm = s.pwm := rfl
@[simp] theorem sent_canvas (es : List TxEvent) : (s.sent es).canvas = s.canvas := rfl
@[simp] theorem sent_canvasLen (es : List TxEvent) : (s.sent es).canvasLen = s.canvasLen := rfl
@[simp] theorem sent_racing (es : List TxEvent) : (s.sent es).racing = s.racing := rfl
@[simp] theorem sent_inputs (es : List TxEvent) : (s.sent es).inputs = s.inputs := rfl
@[simp] theorem sent_responses (es : List TxEvent) : (s.sent es).responses = s.responses := rfl
@[simp] theorem sent_trace (es : List TxEvent) : (s.sent es).trace = s.trace ++ es := rfl
@[simp] theorem sent_preTable (es : List TxEvent) : (s.sent es).preTable = s.preTable := rfl
@[simp] theorem sent_answers (es : List TxEvent) : (s.sent es).answers = s.answers.drop es.length := rfl
@[simp] theorem sent_tick (es : List TxEvent) : (s.sent es).tick = s.tick := rfl

@[simp] theorem take_status (r : List HostInput) (ws : List Host.Cell) : (s.take r ws).status = s.status := rfl
@[simp] theorem take_canvasW (r : List HostInput) (ws : List Host.Cell) : (s.take r ws).canvasW = s.canvasW := rfl
@[simp] theorem take_canvasH (r : List HostInput) (ws : List Host.Cell) : (s.take r ws).canvasH = s.canvasH := rfl
@[simp] theorem take_tileIx (r : List HostInput) (ws : List Host.Cell) : (s.take r ws).tileIx = s.tileIx := rfl
@[simp] theorem take_tile (r : List HostInput) (ws : List Host.Cell) : (s.take r ws).tile = s.tile := rfl
@[simp] theorem take_onoff (r : List HostInput) (ws : List Host.Cell) : (s.take r ws).onoff = s.onoff := rfl
@[simp] theorem take_pwm (r : List HostInput) (ws : List Host.Cell) : (s.take r ws).pwm = s.pwm := rfl
@[simp] theorem take_canvas (r : List HostInput) (ws : List Host.Cell) : (s.take r ws).canvas = s.canvas := rfl
@[simp] theorem take_canvasLen (r : List HostInput) (ws : List Host.Cell) : (s.take r ws).canvasLen = s.canvasLen := rfl
@[simp] theorem take_racing (r : List HostInput) (ws : List Host.Cell) : (s.take r ws).racing = ws := rfl
@[simp] theorem take_inputs (r : List HostInput) (ws : List Host.Cell) : (s.take r ws).inputs = r := rfl
@[simp] theorem take_responses (r : List HostInput) (ws : List Host.Cell) : (s.take r ws).responses = s.responses := rfl
@[simp] theorem take_trace (r : List HostInput) (ws : List Host.Cell) : (s.take r ws).trace = s.trace := rfl
@[simp] theorem take_preTable (r : List HostInput) (ws : List Host.Cell) : (s.take r ws).preTable = s.preTable := rfl
@[simp] theorem take_answers (r : List HostInput) (ws : List Host.Cell) : (s.take r ws).answers = s.answers := rfl
@[simp] theorem take_tick (r : List HostInput) (ws : List Host.Cell) : (s.take r ws).tick = s.tick + 1 := rfl

@[simp] theorem settle_status : (s.settle).status = s.status := rfl
@[simp] theorem settle_canvasW : (s.settle).canvasW = s.canvasW := rfl
@[simp] theorem settle_canvasH : (s.settle).canvasH = s.canvasH := rfl
@[simp] theorem settle_tileIx : (s.settle).tileIx = s.tileIx := rfl
@[simp] theorem settle_tile : (s.settle).tile = s.tile := rfl
@[simp] theorem settle_onoff : (s.settle).onoff = s.onoff := rfl
@[simp] theorem settle_pwm : (s.settle).pwm = s.pwm := rfl
@[simp] theorem settle_canvas : (s.settle).canvas = s.canvas.writeAll s.racing := rfl
@[simp] theorem settle_canvasLen : (s.settle).canvasLen = s.canvasLen := rfl
@[simp] theorem settle_racing : (s.settle).racing = [] := rfl
@[simp] theorem settle_inputs : (s.settle).inputs = s.inputs := rfl
@[simp] theorem settle_responses : (s.settle).responses = s.responses := rfl
@[simp] theorem settle_trace : (s.settle).trace = s.trace := rfl
@[simp] theorem settle_preTable : (s.settle).preTable = s.preTable := rfl
@[simp] theorem settle_answers : (s.settle).answers = s.answers := rfl
@[simp] theorem settle_tick : (s.settle).tick = s.tick := rfl

@[simp] theorem cutTo_status (t : State) : (s.cutTo t).status = 0x0000#16 := rfl
@[simp] theorem cutTo_canvasW (t : State) : (s.cutTo t).canvasW = 0#16 := rfl
@[simp] theorem cutTo_canvasH (t : State) : (s.cutTo t).canvasH = 0#8 := rfl
@[simp] theorem cutTo_tileIx (t : State) : (s.cutTo t).tileIx = 0#16 := rfl
@[simp] theorem cutTo_tile (t : State) : (s.cutTo t).tile = blankTile := rfl
@[simp] theorem cutTo_onoff (t : State) : (s.cutTo t).onoff = blankOnOff := rfl
@[simp] theorem cutTo_pwm (t : State) : (s.cutTo t).pwm = blankPwm := rfl
@[simp] theorem cutTo_canvas (t : State) : (s.cutTo t).canvas = s.canvas := rfl
@[simp] theorem cutTo_canvasLen (t : State) : (s.cutTo t).canvasLen = s.canvasLen := rfl
@[simp] theorem cutTo_racing (t : State) : (s.cutTo t).racing = s.racing := rfl
@[simp] theorem cutTo_inputs (t : State) : (s.cutTo t).inputs = s.inputs := rfl
@[simp] theorem cutTo_responses (t : State) : (s.cutTo t).responses = s.responses := rfl
@[simp] theorem cutTo_preTable (t : State) : (s.cutTo t).preTable = s.preTable := rfl
@[simp] theorem cutTo_tick (t : State) : (s.cutTo t).tick = s.tick := rfl
@[simp] theorem cutTo_trace (t : State) : (s.cutTo t).trace =
    s.trace ++ (t.trace.drop s.trace.length).take (Config.resetCut s.tick) := rfl
@[simp] theorem cutTo_answers (t : State) : (s.cutTo t).answers =
    s.answers.drop ((t.trace.drop s.trace.length).take (Config.resetCut s.tick)).length := rfl

@[simp] theorem respond_bound (c : RespCode) (d : Word) : (s.respond c d).bound = s.bound := rfl
@[simp] theorem sent_bound (es : List TxEvent) : (s.sent es).bound = s.bound := rfl
@[simp] theorem encodeBuffers_bound : s.encodeBuffers.bound = s.bound := by simp only [State.bound, encodeBuffers_status]
@[simp] theorem resetTae_bound : s.resetTae.bound = false := by simp [State.bound]
@[simp] theorem take_bound (r : List HostInput) (ws : List Host.Cell) : (s.take r ws).bound = s.bound := rfl
@[simp] theorem settle_bound : s.settle.bound = s.bound := rfl

@[simp] theorem withFetchWord_inputs (n w : Nat) :
    (s.withFetchWord n w).inputs = .command (tableWord n w) [] :: s.inputs := rfl

end Sys2Proof.Machine
end

