-- ==== Sys2Proof/Laws/Flags.lean ====
section
/-!
SUPPORT. What setting one bit of `STATUS` does (R219), bit by bit.
-/

namespace Sys2Proof.Machine

/-- Setting bit `n` sets bit `n` and keeps every other bit. -/
theorem setStatusBit_getLsbD (v : BitVec 16) (n j : Nat) (hn : n < 16) :
    (setStatusBit v n).getLsbD j = (v.getLsbD j || decide (j = n)) := by
  simp only [setStatusBit, BitVec.getLsbD_or, BitVec.getLsbD_shiftLeft, BitVec.getLsbD_one]
  by_cases hj : j = n
  · subst hj; simp [hn]
  · have : ¬ (j - n = 0 ∧ ¬ j < n) := by omega
    by_cases hlt : j < n
    · simp [hlt, hj]
    · have h0 : ¬ (j - n = 0) := by omega
      simp [hj, h0]

theorem FaultKind.code_range (k : FaultKind) : 1 ≤ k.code ∧ k.code ≤ 4 := by
  cases k <;> decide

theorem FaultKind.code_injective {k k' : FaultKind} (h : k.code = k'.code) : k = k' := by
  revert h; cases k <;> cases k' <;> decide

/-- Raising a fault sets its own sticky bit and keeps every other bit of `STATUS`. -/
theorem raise_status_getLsbD (s : State) (k : FaultKind) (d : Word) (j : Nat) :
    (s.raise k d).status.getLsbD j = (s.status.getLsbD j || decide (j = k.code)) :=
  setStatusBit_getLsbD _ _ _ (by have := k.code_range; omega)

@[simp] theorem raise_bound (s : State) (k : FaultKind) (d : Word) : (s.raise k d).bound = s.bound := by
  have := k.code_range
  have h0 : ¬ 0 = k.code := by omega
  simp only [State.bound, raise_status_getLsbD, h0, decide_false, Bool.or_false]

/-- Raising a fault leaves every field but `STATUS` and the response port. -/
theorem raise_frame (s : State) (k : FaultKind) (d : Word) :
    { s.raise k d with status := s.status, responses := s.responses } = s := rfl

/-- Responding leaves every field but the response port. -/
theorem respond_frame (s : State) (c : RespCode) (d : Word) :
    { s.respond c d with responses := s.responses } = s := rfl

/-- Bits 15:5 stay zero when bit `n` of the low five is set. -/
theorem setStatusBit_reserved {v : BitVec 16} {n : Nat} (hn : n < 5) (h : v &&& 0xFFE0#16 = 0#16) :
    setStatusBit v n &&& 0xFFE0#16 = 0#16 := by
  have hz : (1#16 <<< n) &&& 0xFFE0#16 = 0#16 := by
    have : n = 0 ∨ n = 1 ∨ n = 2 ∨ n = 3 ∨ n = 4 := by omega
    rcases this with rfl | rfl | rfl | rfl | rfl <;> decide
  rw [setStatusBit, BitVec.and_comm, BitVec.and_or_distrib_left, BitVec.and_comm _ v, h,
    BitVec.and_comm, hz, BitVec.or_zero]

end Sys2Proof.Machine
end

