-- ==== Sys2Proof/Laws/Memory.lean ====
section
/-!
SUPPORT. The canvas memory: a read after a write, and the canonical form that every operation keeps.
-/

namespace Sys2Proof.Machine

theorem Memory.read_of_lt {m : Memory} {i : Nat} (h : ∀ c ∈ m, i < c.1) : m.read i = Memory.blank := by
  induction m with
  | nil => rfl
  | cons c m ih =>
    obtain ⟨a, v⟩ := c
    have ha : i < a := h (a, v) (by simp)
    rw [Memory.read, if_neg (by omega)]
    exact ih fun c hc => h c (by simp [hc])

/-- A read after a write: the byte written at its index, the old byte everywhere else. -/
theorem Memory.read_write {m : Memory} (hm : m.wf) (i j : Nat) (v : Byte) :
    (m.write i v).read j = if j = i then v else m.read j := by
  induction m with
  | nil =>
    by_cases hv : v = Memory.blank
    · simp [Memory.write, hv, Memory.read]
    · by_cases hj : j = i
      · simp [Memory.write, hv, Memory.read, hj]
      · simp [Memory.write, hv, Memory.read, hj, Ne.symm hj]
  | cons c m ih =>
    obtain ⟨a, u⟩ := c
    have hp := List.pairwise_cons.mp hm.1
    have hlt : ∀ c ∈ m, a < c.1 := hp.1
    have hm' : Memory.wf m := ⟨hp.2, fun c hc => hm.2 c (List.mem_cons_of_mem _ hc)⟩
    by_cases hia : i < a
    · have hblank : i ≠ a := by omega
      have hbelow : Memory.read m i = Memory.blank :=
        Memory.read_of_lt fun c hc => by have := hlt c hc; omega
      by_cases hv : v = Memory.blank
      · by_cases hj : j = i
        · subst hj
          simp [Memory.write, hia, hv, Memory.read, hbelow, Ne.symm hblank]
        · simp [Memory.write, hia, hv, hj]
      · by_cases hj : j = i
        · simp [Memory.write, hia, hv, Memory.read, hj]
        · simp [Memory.write, hia, hv, Memory.read, hj, Ne.symm hj]
    · by_cases hie : i = a
      · subst hie
        have hbelow : Memory.read m i = Memory.blank := Memory.read_of_lt hlt
        by_cases hv : v = Memory.blank
        · by_cases hj : j = i
          · subst hj; simp [Memory.write, hv, hbelow]
          · simp [Memory.write, hv, Memory.read, hj, Ne.symm hj]
        · by_cases hj : j = i
          · subst hj; simp [Memory.write, hv, Memory.read]
          · simp [Memory.write, hv, Memory.read, hj, Ne.symm hj]
      · by_cases hja : a = j
        · subst hja
          simp [Memory.write, hia, hie, Memory.read, Ne.symm hie]
        · simp [Memory.write, hia, hie, Memory.read, hja, ih hm']

/-- Every cell of a written memory is the one written or was there before. -/
theorem Memory.mem_write {m : Memory} {i : Nat} {v : Byte} {c : Host.Cell} (h : c ∈ m.write i v) :
    (c = (i, v) ∧ v ≠ Memory.blank) ∨ c ∈ m := by
  induction m with
  | nil =>
    by_cases hv : v = Memory.blank <;> simp [Memory.write, hv] at h
    exact .inl ⟨h, hv⟩
  | cons d m ih =>
    obtain ⟨a, u⟩ := d
    simp only [Memory.write] at h
    split at h
    · split at h
      · exact .inr h
      · next hv =>
        rcases List.mem_cons.mp h with h | h
        · exact .inl ⟨h, hv⟩
        · exact .inr h
    · split at h
      · split at h
        · exact .inr (List.mem_cons_of_mem _ h)
        · next hv =>
          rcases List.mem_cons.mp h with h | h
          · exact .inl ⟨h, hv⟩
          · exact .inr (List.mem_cons_of_mem _ h)
      · rcases List.mem_cons.mp h with h | h
        · exact .inr (by simp [h])
        · rcases ih h with h | h
          · exact .inl h
          · exact .inr (List.mem_cons_of_mem _ h)

/-- A write keeps the canonical form. -/
theorem Memory.write_wf {m : Memory} (hm : m.wf) (i : Nat) (v : Byte) : (m.write i v).wf := by
  refine ⟨?_, fun c hc => ?_⟩
  · induction m with
    | nil => by_cases hv : v = Memory.blank <;> simp [Memory.write, hv]
    | cons c m ih =>
      obtain ⟨a, u⟩ := c
      have hp := List.pairwise_cons.mp hm.1
      have hm' : Memory.wf m := ⟨hp.2, fun c hc => hm.2 c (List.mem_cons_of_mem _ hc)⟩
      simp only [Memory.write]
      split
      · next hia =>
        split
        · exact hm.1
        · refine List.pairwise_cons.mpr ⟨fun d hd => ?_, hm.1⟩
          rcases List.mem_cons.mp hd with rfl | hd
          · exact hia
          · exact Nat.lt_trans hia (hp.1 d hd)
      · next hia =>
        split
        · next hie =>
          subst hie
          split
          · exact hp.2
          · exact List.pairwise_cons.mpr ⟨hp.1, hp.2⟩
        · refine List.pairwise_cons.mpr ⟨fun d hd => ?_, ih hm'⟩
          rcases Memory.mem_write hd with ⟨rfl, -⟩ | hd
          · show a < i; omega
          · exact hp.1 d hd
  · rcases Memory.mem_write hc with ⟨rfl, hv⟩ | hc
    · exact hv
    · exact hm.2 c hc

/-- Writing several bytes keeps the canonical form. -/
theorem Memory.writeAll_wf {m : Memory} (hm : m.wf) (ws : List Host.Cell) : (m.writeAll ws).wf := by
  induction ws generalizing m with
  | nil => exact hm
  | cons c ws ih => exact ih (Memory.write_wf hm c.1 c.2)

/-- Writing bytes inside the memory lists no byte outside it. -/
theorem Memory.writeAll_inside {m : Memory} {n : Nat} {ws : List Host.Cell} (hm : ∀ c ∈ m, c.1 < n)
    (hw : ∀ c ∈ ws, c.1 < n) : ∀ c ∈ m.writeAll ws, c.1 < n := by
  induction ws generalizing m with
  | nil => exact hm
  | cons d ws ih =>
    refine ih (fun c hc => ?_) fun c hc => hw c (List.mem_cons_of_mem _ hc)
    rcases Memory.mem_write hc with ⟨rfl, -⟩ | hc
    · exact hw _ (List.mem_cons_self ..)
    · exact hm c hc

theorem State.reset_canvas_wf : State.reset.canvas.wf := by decide

@[simp] theorem Memory.writeAll_nil (m : Memory) : m.writeAll [] = m := rfl

/-- A canvas read that no host write races with sees the byte held (R10, R64). -/
theorem canvasRead_noRace {s : State} (h : s.racing = []) (i : Nat) :
    canvasRead s i = if i < s.canvasLen then some (s.canvas.read i) else none := by
  simp [canvasRead, racedByte, h]

/-- A canvas read answers exactly at the indices the memory has (R10). -/
theorem canvasRead_isSome (s : State) (i : Nat) : (canvasRead s i).isSome = decide (i < s.canvasLen) := by
  by_cases h : i < s.canvasLen <;> simp [canvasRead, h]

end Sys2Proof.Machine
end

