-- ==== Sys2Proof/Laws/Ops.lean ====
section
/-!
SUPPORT. One lemma per shared operation that says once what it can do: the end of a command, and what an
operand names (a pixel, a buffer byte, a control register).
-/

namespace Sys2Proof.Machine

/-- A command whose work ends, one way or the other, gives exactly one response (R93). -/
theorem finish_responses (w : Work) (d : Word) :
    ∃ r, (w.finish d).responses = w.state.responses ++ [r] := by
  cases w with
  | done s => exact ⟨_, rfl⟩
  | ended k e s => exact ⟨_, rfl⟩

/-- Ending a command changes only `STATUS` and the response port of the state the work has reached. -/
theorem finish_frame (w : Work) (d : Word) :
    { w.finish d with status := w.state.status, responses := w.state.responses } = w.state := by
  cases w <;> rfl

@[simp] theorem finish_done (s : State) (d : Word) : (Work.done s).finish d = s.respond .ok d := rfl

@[simp] theorem finish_ended (k : FaultKind) (e : Word) (s : State) (d : Word) :
    (Work.ended k e s).finish d = s.raise k e := rfl

@[simp] theorem state_done (s : State) : (Work.done s).state = s := rfl

@[simp] theorem state_ended (k : FaultKind) (e : Word) (s : State) : (Work.ended k e s).state = s := rfl

theorem inTile_iff (x y : Nat) : inTile x y = true ↔ x < 24 ∧ y < 5 := by simp [inTile]

/-- A coordinate of the tile names its pixel. -/
theorem readPixel_inside (t : Tile) {x y : Nat} (hx : x < 24) (hy : y < 5) :
    readPixel t x y = some (t[x][y]) := by
  simp [readPixel, hx, hy]

/-- A coordinate outside the tile names nothing (U1). -/
theorem readPixel_outside (t : Tile) {x y : Nat} (h : ¬ (x < 24 ∧ y < 5)) : readPixel t x y = none := by
  by_cases hx : x < 24
  · simp [readPixel, hx, show ¬ y < 5 from fun hy => h ⟨hx, hy⟩]
  · simp [readPixel, hx]

/-- Two tiles with the same pixels are the same tile. -/
theorem tile_ext {t u : Tile} (h : ∀ x < 24, ∀ y < 5, readPixel t x y = readPixel u x y) : t = u := by
  apply Vector.ext; intro x hx
  apply Vector.ext; intro y hy
  have := h x hx y hy
  rwa [readPixel_inside t hx hy, readPixel_inside u hx hy, Option.some.injEq] at this

/-- A pixel write inside the tile succeeds and changes that pixel alone (R131). -/
theorem writePixel_inside (t : Tile) {x y : Nat} (v : Byte) (hx : x < 24) (hy : y < 5) :
    ∃ u, writePixel t x y v = some u ∧
      ∀ x' y', readPixel u x' y' = if x' = x ∧ y' = y then some v else readPixel t x' y' := by
  refine ⟨t.setIfInBounds x (t[x].setIfInBounds y v), by simp [writePixel, hx, hy], fun x' y' => ?_⟩
  by_cases hx' : x' < 24
  · by_cases hy' : y' < 5
    · rw [readPixel_inside _ hx' hy', readPixel_inside _ hx' hy']
      by_cases hxx : x' = x
      · subst hxx
        by_cases hyy : y' = y
        · subst hyy; simp
        · simp [hyy, Ne.symm hyy]
      · simp [hxx, Ne.symm hxx]
    · have hn : ¬ (x' = x ∧ y' = y) := by omega
      rw [if_neg hn, readPixel_outside _ (by omega), readPixel_outside _ (by omega)]
  · have hn : ¬ (x' = x ∧ y' = y) := by omega
    rw [if_neg hn, readPixel_outside _ (by omega), readPixel_outside _ (by omega)]

/-- A pixel write outside the tile writes nothing (R131). -/
theorem writePixel_outside (t : Tile) {x y : Nat} (v : Byte) (h : ¬ (x < 24 ∧ y < 5)) :
    writePixel t x y v = none := by
  by_cases hx : x < 24
  · simp [writePixel, hx, show ¬ y < 5 from fun hy => h ⟨hx, hy⟩]
  · simp [writePixel, hx]

theorem readPixel_blank {x y : Nat} (hx : x < 24) (hy : y < 5) : readPixel blankTile x y = some 0x00#8 := by
  rw [readPixel_inside _ hx hy]; simp [blankTile]

theorem readOnOff_inside (b : OnOff) {i : Nat} (h : i < 24) : readOnOff b i = some b[i] := by
  simp [readOnOff, h]

theorem readOnOff_outside (b : OnOff) {i : Nat} (h : ¬ i < 24) : readOnOff b i = none := by
  simp [readOnOff, h]

theorem readPwm_inside (b : Pwm) {i : Nat} (h : i < 131) : readPwm b i = some b[i] := by
  simp [readPwm, h]

theorem readPwm_outside (b : Pwm) {i : Nat} (h : ¬ i < 131) : readPwm b i = none := by
  simp [readPwm, h]

theorem readControl_reserved (s : State) {n : Nat} (h : 5 ≤ n) : readControl s n = none := by
  unfold readControl
  split <;> first | rfl | omega

end Sys2Proof.Machine
end

