-- ==== Sys2Proof/Laws/Packer.lean ====
section
/-!
SUPPORT. The mapper and the packer: the 120 coordinates, and what one pixel's update of an on/off buffer does
bit by bit (R114).
-/

namespace Sys2Proof.Machine

theorem mem_tilePixels (p : Fin 24 × Fin 5) : p ∈ tilePixels := by
  rw [tilePixels, List.mem_flatMap]
  simp only [List.mem_map]
  exact ⟨p.1, List.mem_finRange _, p.2, List.mem_finRange _, rfl⟩

/-- A property of every coordinate's entry, as `List.all` over the tile and as a bounded quantifier. -/
theorem all_tilePixels {f : Nat → Nat → Bool} :
    (tilePixels.all fun p => f p.1 p.2) = true ↔ ∀ x < 24, ∀ y < 5, f x y = true := by
  rw [List.all_eq_true]
  exact ⟨fun h x hx y hy => h (⟨x, hx⟩, ⟨y, hy⟩) (mem_tilePixels _),
    fun h p _ => h p.1 p.1.2 p.2 p.2.2⟩

theorem ledIndex_lt {x y : Nat} (hx : x < 24) (hy : y < 5) : ledIndex x y < 120 := by
  unfold ledIndex; omega

theorem registerIndex_lt {led : Nat} (h : led < 120) : registerIndex led < 24 := by
  unfold registerIndex registerBit; omega

theorem bitInByte_lt (led : Nat) : bitInByte led < 8 := by unfold bitInByte; omega

theorem bitMask_getLsbD (led j : Nat) (hj : j < 8) :
    (bitMask led).getLsbD j = decide (j = bitInByte led) := by
  have hb := bitInByte_lt led
  simp only [bitMask, BitVec.getLsbD_shiftLeft, BitVec.getLsbD_one]
  by_cases h : j = bitInByte led
  · subst h; simp [hj]
  · by_cases hlt : j < bitInByte led
    · simp [h, hlt]
    · have : ¬ j - bitInByte led = 0 := by omega
      simp [h, this]

/-- R114, bit by bit: only the addressed bit changes, and it says whether the pixel is nonzero. -/
theorem updateOnOff_getLsbD (buf : OnOff) {led : Nat} (p : Byte) {r j : Nat} (hled : led < 120) (hr : r < 24)
    (hj : j < 8) :
    ((updateOnOff buf led p)[r]).getLsbD j =
      if r = registerIndex led ∧ j = bitInByte led then decide (p ≠ 0x00#8) else (buf[r]).getLsbD j := by
  have hi := registerIndex_lt hled
  by_cases hrr : r = registerIndex led
  · subst hrr
    have hset : (updateOnOff buf led p)[registerIndex led] =
        if p ≠ 0x00#8 then buf[registerIndex led] ||| bitMask led
        else buf[registerIndex led] &&& ~~~(bitMask led) := by simp [updateOnOff, hi]
    rw [hset]
    by_cases hp : p = 0x00#8
    · rw [if_neg (by simpa using hp), BitVec.getLsbD_and, BitVec.getLsbD_not, bitMask_getLsbD led j hj]
      by_cases h : j = bitInByte led <;> simp [h, hp, hj]
    · rw [if_pos hp, BitVec.getLsbD_or, bitMask_getLsbD led j hj]
      by_cases h : j = bitInByte led <;> simp [h, hp]
  · simp [updateOnOff, hrr, Ne.symm hrr]

/-- Storing one byte of a brightness table changes that byte alone. -/
theorem setPwm_getElem (pwm : Pwm) {i r : Nat} (v : Byte) (hr : r < 131) :
    (pwm.setIfInBounds i v)[r] = if r = i then v else pwm[r] := by
  by_cases h : r = i
  · subst h; simp
  · simp [h, Ne.symm h]

end Sys2Proof.Machine
end

