-- ==== Sys2Proof/Laws/Emission.lean ====
section
/-!
SUPPORT. The partitioner's slice and the output side: what a slice holds, what issuing calls can do (all of
them answered `ok`, or a first `fail`), and how a fact about one tile carries through `RENDER`'s loop.
-/

namespace Sys2Proof.Machine

/-- The slice byte by byte. -/
theorem readPixel_sliceTile (s : State) (t : Nat) {x y : Nat} (hx : x < 24) (hy : y < 5) :
    readPixel (sliceTile s t) x y = some ((sliceByte s t x y).getD 0x00#8) := by
  rw [readPixel_inside _ hx hy]; simp [sliceTile]

/-- `load_tile` (R157): it fails on a tall canvas or on a read outside the memory, and otherwise gives the
slice. -/
theorem loadSlice_eq_some {s : State} {t : Nat} {u : Tile} (h : loadSlice s t = some u) :
    u = sliceTile s t ∧ s.canvasH.toNat ≤ 5 ∧
      ∀ x < 24, ∀ y < 5, readPixel u x y = sliceByte s t x y := by
  unfold loadSlice at h
  split at h
  · exact absurd h (by simp)
  · next hH =>
    split at h
    · next hall =>
      obtain rfl := Option.some.inj h
      refine ⟨rfl, by omega, fun x hx y hy => ?_⟩
      have hsome := (all_tilePixels (f := fun x y => (sliceByte s t x y).isSome)).mp hall x hx y hy
      obtain ⟨b, hb⟩ := Option.isSome_iff_exists.mp hsome
      rw [readPixel_sliceTile s t hx hy, hb]; rfl
    · exact absurd h (by simp)

theorem loadSlice_isSome_iff (s : State) (t : Nat) :
    (loadSlice s t).isSome = true ↔
      s.canvasH.toNat ≤ 5 ∧ ∀ x < 24, ∀ y < 5, (sliceByte s t x y).isSome = true := by
  unfold loadSlice
  split
  · next h => simp; omega
  · next h =>
    rw [← all_tilePixels (f := fun x y => (sliceByte s t x y).isSome)]
    split
    · next hall => simp [hall]; omega
    · next hall => simp [hall]

/-- Every call answered `ok`: every call is an event, and none failed. -/
theorem issueCalls_all_ok {answer : Nat → TxAnswer} {calls : List (TableKind × TxCall)} {n : Nat}
    (h : ∀ m < calls.length, answer (n + m) = .ok) :
    issueCalls answer calls n = (calls.map fun c => ⟨c.2, .ok⟩, none) := by
  induction calls generalizing n with
  | nil => rfl
  | cons c calls ih =>
    obtain ⟨kind, c⟩ := c
    have h0 : answer n = .ok := h 0 (by simp)
    have hrest := ih (n := n + 1) fun m hm => by
      have := h (m + 1) (by simp; omega)
      rwa [show n + (m + 1) = n + 1 + m by omega] at this
    simp [issueCalls, h0, hrest]

/-- The first call answered `fail` is the last event, and its table is named (R174). -/
theorem issueCalls_first_fail {answer : Nat → TxAnswer} {calls : List (TableKind × TxCall)} {n m : Nat}
    (hm : m < calls.length) (hok : ∀ j < m, answer (n + j) = .ok) (hfail : answer (n + m) = .fail) :
    issueCalls answer calls n =
      ((calls.take m).map (fun c => ⟨c.2, .ok⟩) ++ [⟨calls[m].2, .fail⟩], some calls[m].1) := by
  induction calls generalizing n m with
  | nil => simp at hm
  | cons c calls ih =>
    obtain ⟨kind, c⟩ := c
    cases m with
    | zero => simp [issueCalls, show answer n = .fail from hfail]
    | succ m =>
      have h0 : answer n = .ok := hok 0 (by omega)
      have hrest := ih (n := n + 1) (m := m) (by simpa using hm)
        (fun j hj => by
          have := hok (j + 1) (by omega)
          rwa [show n + (j + 1) = n + 1 + j by omega] at this)
        (by rwa [show n + 1 + m = n + (m + 1) by omega])
      simp [issueCalls, h0, hrest]

/-- Sending a tile changes only the trace and the answers still to come. -/
theorem emitTile_state (t : BitVec 16) (b : Bool) (s : State) :
    ∃ es, (emitTile t b s).state = s.sent es := by
  unfold emitTile
  split <;> exact ⟨_, rfl⟩

/-- A tile's turn in `RENDER` reaches either the tile index alone (its slice could not be loaded) or the
loaded and encoded tile with some of its calls sent. -/
theorem renderTile_state (cmd : Word) (b : Bool) (t : Nat) (s : State) :
    (renderTile cmd b t s).state = { s with tileIx := BitVec.ofNat 16 t } ∨
    ∃ u es, loadSlice s t = some u ∧ (renderTile cmd b t s).state =
      { s with tileIx := BitVec.ofNat 16 t, tile := u }.encodeBuffers.sent es := by
  unfold renderTile
  split
  · next u hu =>
    obtain ⟨es, hes⟩ := emitTile_state (BitVec.ofNat 16 t) b
      { s with tileIx := BitVec.ofNat 16 t, tile := u }.encodeBuffers
    exact .inr ⟨u, es, hu, hes⟩
  · exact .inl rfl

/-- What every tile's turn keeps, the whole loop of `RENDER` keeps. -/
theorem renderTiles_keeps {P : State → Prop} {cmd : Word} {b : Bool}
    (hturn : ∀ t s, P s → P (renderTile cmd b t s).state) (ts : List Nat) (s : State) (h : P s) :
    P (renderTiles cmd b ts s).state := by
  induction ts generalizing s with
  | nil => exact h
  | cons t ts ih =>
    have ht := hturn t s h
    simp only [renderTiles]
    split
    · next s' hs => rw [hs] at ht; exact ih s' ht
    · next k d s' hs => rw [hs] at ht; exact ht

end Sys2Proof.Machine
end

