-- ==== Sys2Proof/Laws/Exec.lean ====
section
/-!
SUPPORT. What a command can do, said once: `Effect` lists the shapes of a command's next state, and
`exec_effect` says that every command's next state has one of them.
-/

namespace Sys2Proof.Machine

/-- What the loop of `RENDER` keeps: every register but `TILE_IX`, the responses and the environment; the trace
grows by events whose answers are used up. -/
structure Kept (s t : State) : Prop where
  status : t.status = s.status
  canvasW : t.canvasW = s.canvasW
  canvasH : t.canvasH = s.canvasH
  canvas : t.canvas = s.canvas
  canvasLen : t.canvasLen = s.canvasLen
  racing : t.racing = s.racing
  inputs : t.inputs = s.inputs
  responses : t.responses = s.responses
  preTable : t.preTable = s.preTable
  tick : t.tick = s.tick
  sends : ∃ es, t.trace = s.trace ++ es ∧ t.answers = s.answers.drop es.length

theorem Kept.refl (s : State) : Kept s s :=
  ⟨rfl, rfl, rfl, rfl, rfl, rfl, rfl, rfl, rfl, rfl, [], by simp, by simp⟩

theorem Kept.trans {s t u : State} (h : Kept s t) (g : Kept t u) : Kept s u := by
  obtain ⟨es, h1, h2⟩ := h.sends
  obtain ⟨fs, g1, g2⟩ := g.sends
  exact ⟨g.status.trans h.status, g.canvasW.trans h.canvasW, g.canvasH.trans h.canvasH,
    g.canvas.trans h.canvas, g.canvasLen.trans h.canvasLen, g.racing.trans h.racing,
    g.inputs.trans h.inputs, g.responses.trans h.responses, g.preTable.trans h.preTable,
    g.tick.trans h.tick, es ++ fs, by simp [g1, h1], by simp [g2, h2]⟩

/-- One tile's turn in `RENDER` keeps what `Kept` says. -/
theorem renderTile_kept (cmd : Word) (b : Bool) (t : Nat) (s : State) :
    Kept s (renderTile cmd b t s).state := by
  rcases renderTile_state cmd b t s with h | ⟨u, es, -, h⟩ <;> rw [h]
  · exact ⟨rfl, rfl, rfl, rfl, rfl, rfl, rfl, rfl, rfl, rfl, [], by simp, by simp⟩
  · exact ⟨by simp, by simp, by simp, by simp, by simp, by simp, by simp, by simp, by simp, by simp, es,
      by simp, by simp⟩

theorem renderTiles_kept (cmd : Word) (b : Bool) (ts : List Nat) (s : State) :
    Kept s (renderTiles cmd b ts s).state :=
  renderTiles_keeps (P := Kept s) (fun t q h => h.trans (renderTile_kept cmd b t q)) ts s (Kept.refl s)

/-- The loop of `RENDER` ends with BoundsViolation and the command word, or with TransportFailure (R176). -/
theorem renderTiles_ended {cmd : Word} {b : Bool} {ts : List Nat} {s : State} {k : FaultKind} {d : Word}
    {u : State} (h : renderTiles cmd b ts s = .ended k d u) :
    (k = .boundsViolation ∧ d = cmd) ∨ k = .transportFailure := by
  induction ts generalizing s with
  | nil => simp [renderTiles] at h
  | cons t ts ih =>
    simp only [renderTiles] at h
    split at h
    · exact ih h
    · next hr =>
      obtain ⟨rfl, rfl, rfl⟩ := Work.ended.inj h
      simp only [renderTile] at hr
      split at hr
      · simp only [emitTile] at hr
        split at hr
        · cases hr
        · exact .inr (Work.ended.inj hr).1.symm
      · exact .inl ⟨(Work.ended.inj hr).1.symm, (Work.ended.inj hr).2.1.symm⟩

/-- The shapes of a command's next state. -/
inductive Effect (i : Instr) (s : State) : State → Prop where
  /-- A reading command or `NOP`: the response only. -/
  | answered (d : Word) : Effect i s (s.respond .ok d)
  /-- A fault found before anything was changed (R220). -/
  | faulted (k : FaultKind) (h : k ≠ .transportFailure) : Effect i s (s.raise k (encode i))
  | reset (h : i = .rst) : Effect i s (s.resetTae.respond .ok 0)
  | tileWritten (u : Tile) (h : i = .tclr ∨ ∃ x y v, i = .tpix x y v) :
    Effect i s ({ s with tile := u }.respond .ok 0)
  | encoded (h : i = .encode) : Effect i s (s.encodeBuffers.respond .ok 0)
  | boundTo (w h : Nat) (hi : i = .canvas w h) (hw : w ≠ 0) (hh : h ≠ 0) :
    Effect i s ({ s with
      canvasW := BitVec.ofNat 16 w
      canvasH := BitVec.ofNat 8 h
      status := setStatusBit s.status 0
      tileIx := 0#16 }.respond .ok (BitVec.ofNat 32 (w / 24)))
  | loaded (t : Nat) (u : Tile) (h : i = .loadt t) (hu : loadSlice s t = some u) :
    Effect i s ({ s with tile := u, tileIx := BitVec.ofNat 16 t }.respond .ok (BitVec.ofNat 32 (24 * t)))
  | emitted (t : Nat) (b : Bool) (es : List TxEvent) (h : i = .emit t b) :
    Effect i s (({ s with tileIx := BitVec.ofNat 16 t }.sent es).respond .ok 0)
  | emitFailed (t : Nat) (b : Bool) (es : List TxEvent) (d : Word) (h : i = .emit t b) :
    Effect i s (({ s with tileIx := BitVec.ofNat 16 t }.sent es).raise .transportFailure d)
  | rendered (b : Bool) (c : Nat) (u : State) (h : i = .render b c) (hb : s.bound = true)
      (hu : renderTiles (encode i) b (List.range (tileCount s.canvasW)) s = .done u) :
    Effect i s (u.respond .ok (BitVec.ofNat 32 (tileCount s.canvasW)))
  | renderFailed (b : Bool) (c : Nat) (k : FaultKind) (d : Word) (u : State) (h : i = .render b c)
      (hb : s.bound = true)
      (hu : renderTiles (encode i) b (List.range (tileCount s.canvasW)) s = .ended k d u) :
    Effect i s (u.raise k d)

/-- Every command answers a next state, of one of the shapes. -/
theorem exec_effect (i : Instr) (s : State) : ∃ t, exec i s = .next t ∧ Effect i s t := by
  cases i with
  | nop => exact ⟨_, rfl, .answered 0⟩
  | rst => exact ⟨_, rfl, .reset rfl⟩
  | map x y =>
    refine ⟨_, rfl, ?_⟩
    split
    · exact .answered _
    · exact .faulted _ (by decide)
  | tclr => exact ⟨_, rfl, .tileWritten _ (.inl rfl)⟩
  | tpix x y v =>
    refine ⟨_, rfl, ?_⟩
    split
    · exact .tileWritten _ (.inr ⟨x, y, v, rfl⟩)
    · exact .faulted _ (by decide)
  | encode => exact ⟨_, rfl, .encoded rfl⟩
  | canvas w h =>
    refine ⟨_, rfl, ?_⟩
    split
    · exact .faulted _ (by decide)
    · next hz => exact .boundTo w h rfl (fun e => hz (.inl e)) (fun e => hz (.inr e))
  | split =>
    refine ⟨_, rfl, ?_⟩
    split
    · exact .answered _
    · exact .faulted _ (by decide)
  | loadt t =>
    refine ⟨_, rfl, ?_⟩
    split
    · unfold loadTile
      split
      · exact .faulted _ (by decide)
      · split
        · next u hu => exact .loaded t u rfl hu
        · exact .faulted _ (by decide)
    · exact .faulted _ (by decide)
  | emit t b =>
    refine ⟨_, rfl, ?_⟩
    unfold emitTile
    split
    · exact .emitted t b _ rfl
    · exact .emitFailed t b _ _ rfl
  | render b c =>
    refine ⟨_, rfl, ?_⟩
    split
    · next hb =>
      rcases hw : renderTiles (commandWord (.render b c)) b (List.range (tileCount s.canvasW)) s with u | ⟨k, d, u⟩
      · exact .rendered b c u rfl hb hw
      · exact .renderFailed b c k d u rfl hb hw
    · exact .faulted _ (by decide)
  | rdcr n =>
    refine ⟨_, rfl, ?_⟩
    split
    · exact .answered _
    · exact .faulted _ (by decide)
  | rdtp x y =>
    refine ⟨_, rfl, ?_⟩
    split
    · exact .answered _
    · exact .faulted _ (by decide)
  | rdoo i =>
    refine ⟨_, rfl, ?_⟩
    split
    · exact .answered _
    · exact .faulted _ (by decide)
  | rdpw i =>
    refine ⟨_, rfl, ?_⟩
    split
    · exact .answered _
    · exact .faulted _ (by decide)

/-- The next state of a command has one of the shapes. -/
theorem effect_of_exec {i : Instr} {s t : State} (h : exec i s = .next t) : Effect i s t := by
  obtain ⟨u, hu, he⟩ := exec_effect i s
  have : u = t := Host.Outcome.next.inj (hu.symm.trans h)
  exact this ▸ he

end Sys2Proof.Machine
end

