-- ==== Sys2Proof/Laws/PerInstr.lean ====
section
/-!
SUPPORT. The family RoundTrip: decoding the word of a well-formed command gives the command back, with every
operand at every value its field holds; one lemma per command.
-/

namespace Sys2Proof.Laws.RoundTrip

/-- What the family says of one command. -/
def Statement (i : Instr) : Prop := i.wellFormed = true → decode (encode i) = .command i

/-- A field of an assembled word, computed on numbers. -/
theorem field_assemble (opcode operands hi lo : Nat) :
    field (assemble opcode operands) hi lo =
      (opcode * 2 ^ 24 + operands) % 2 ^ 32 / 2 ^ lo % 2 ^ (hi + 1 - lo) := by
  simp only [field, assemble, BitVec.toNat_ofNat]

/-- The opcode of an assembled word whose operands keep to bits 23:0. -/
theorem opcode_assemble {opcode operands : Nat} (ho : opcode < 256) (hp : operands < 2 ^ 24) :
    field (assemble opcode operands) 31 24 = opcode := by
  rw [field_assemble]; omega

theorem nop : Statement .nop := by intro _; decide
theorem rst : Statement .rst := by intro _; decide
theorem tclr : Statement .tclr := by intro _; decide
theorem encode : Statement .encode := by intro _; decide
theorem split : Statement .split := by intro _; decide

theorem map (x y : Nat) : Statement (.map x y) := by
  intro h
  simp only [Instr.wellFormed, Bool.and_eq_true, decide_eq_true_eq] at h
  have hx : field (Sys2Proof.encode (.map x y)) 20 16 = x := by
    simp only [Sys2Proof.encode, field_assemble]; omega
  have hy : field (Sys2Proof.encode (.map x y)) 10 8 = y := by
    simp only [Sys2Proof.encode, field_assemble]; omega
  have hz : zeroXY (Sys2Proof.encode (.map x y)) = true := by
    simp only [zeroXY, Sys2Proof.encode, field_assemble, Bool.and_eq_true, beq_iff_eq]; omega
  have ho : field (Sys2Proof.encode (.map x y)) 31 24 = 0x10 := opcode_assemble (by decide) (by omega)
  simp only [decode, ho, hz, hx, hy, ifReservedZero]

theorem tpix (x y v : Nat) : Statement (.tpix x y v) := by
  intro h
  simp only [Instr.wellFormed, Bool.and_eq_true, decide_eq_true_eq] at h
  have hx : field (Sys2Proof.encode (.tpix x y v)) 20 16 = x := by
    simp only [Sys2Proof.encode, field_assemble]; omega
  have hy : field (Sys2Proof.encode (.tpix x y v)) 10 8 = y := by
    simp only [Sys2Proof.encode, field_assemble]; omega
  have hv : field (Sys2Proof.encode (.tpix x y v)) 7 0 = v := by
    simp only [Sys2Proof.encode, field_assemble]; omega
  have hz : zeroP (Sys2Proof.encode (.tpix x y v)) = true := by
    simp only [zeroP, Sys2Proof.encode, field_assemble, Bool.and_eq_true, beq_iff_eq]; omega
  have ho : field (Sys2Proof.encode (.tpix x y v)) 31 24 = 0x21 := opcode_assemble (by decide) (by omega)
  simp only [decode, ho, hz, hx, hy, hv, ifReservedZero]

theorem canvas (w h : Nat) : Statement (.canvas w h) := by
  intro wf
  simp only [Instr.wellFormed, Bool.and_eq_true, decide_eq_true_eq] at wf
  have hw : field (Sys2Proof.encode (.canvas w h)) 23 8 = w := by
    simp only [Sys2Proof.encode, field_assemble]; omega
  have hh : field (Sys2Proof.encode (.canvas w h)) 7 0 = h := by
    simp only [Sys2Proof.encode, field_assemble]; omega
  have ho : field (Sys2Proof.encode (.canvas w h)) 31 24 = 0x30 := opcode_assemble (by decide) (by omega)
  simp only [decode, ho, hw, hh]

theorem loadt (t : Nat) : Statement (.loadt t) := by
  intro h
  simp only [Instr.wellFormed, decide_eq_true_eq] at h
  have ht : field (Sys2Proof.encode (.loadt t)) 15 0 = t := by
    simp only [Sys2Proof.encode, field_assemble]; omega
  have hz : zeroT (Sys2Proof.encode (.loadt t)) = true := by
    simp only [zeroT, Sys2Proof.encode, field_assemble, beq_iff_eq]; omega
  have ho : field (Sys2Proof.encode (.loadt t)) 31 24 = 0x32 := opcode_assemble (by decide) (by omega)
  simp only [decode, ho, hz, ht, ifReservedZero]

theorem emit (t : Nat) (b : Bool) : Statement (.emit t b) := by
  intro h
  simp only [Instr.wellFormed, decide_eq_true_eq] at h
  have ht : field (Sys2Proof.encode (.emit t b)) 15 0 = t := by
    cases b <;> simp only [Sys2Proof.encode, field_assemble, Bool.toNat_true, Bool.toNat_false] <;> omega
  have hb : (field (Sys2Proof.encode (.emit t b)) 16 16 == 1) = b := by
    cases b <;> simp only [Sys2Proof.encode, field_assemble, Bool.toNat_true, Bool.toNat_false,
      beq_iff_eq, beq_eq_false_iff_ne] <;> omega
  have hz : zeroB (Sys2Proof.encode (.emit t b)) = true := by
    cases b <;> simp only [zeroB, Sys2Proof.encode, field_assemble, Bool.toNat_true, Bool.toNat_false,
      beq_iff_eq] <;> omega
  have ho : field (Sys2Proof.encode (.emit t b)) 31 24 = 0x40 :=
    opcode_assemble (by decide) (by cases b <;> simp only [Bool.toNat_true, Bool.toNat_false] <;> omega)
  simp only [decode, ho, hz, ht, hb, ifReservedZero]

theorem render (b : Bool) (clip : Nat) : Statement (.render b clip) := by
  intro h
  simp only [Instr.wellFormed, decide_eq_true_eq] at h
  have ht : field (Sys2Proof.encode (.render b clip)) 15 0 = clip := by
    cases b <;> simp only [Sys2Proof.encode, field_assemble, Bool.toNat_true, Bool.toNat_false] <;> omega
  have hb : (field (Sys2Proof.encode (.render b clip)) 16 16 == 1) = b := by
    cases b <;> simp only [Sys2Proof.encode, field_assemble, Bool.toNat_true, Bool.toNat_false,
      beq_iff_eq, beq_eq_false_iff_ne] <;> omega
  have hz : zeroB (Sys2Proof.encode (.render b clip)) = true := by
    cases b <;> simp only [zeroB, Sys2Proof.encode, field_assemble, Bool.toNat_true, Bool.toNat_false,
      beq_iff_eq] <;> omega
  have ho : field (Sys2Proof.encode (.render b clip)) 31 24 = 0x41 :=
    opcode_assemble (by decide) (by cases b <;> simp only [Bool.toNat_true, Bool.toNat_false] <;> omega)
  simp only [decode, ho, hz, ht, hb, ifReservedZero]

theorem rdcr (n : Nat) : Statement (.rdcr n) := by
  intro h
  simp only [Instr.wellFormed, decide_eq_true_eq] at h
  have hn : field (Sys2Proof.encode (.rdcr n)) 7 0 = n := by
    simp only [Sys2Proof.encode, field_assemble]; omega
  have hz : zeroI (Sys2Proof.encode (.rdcr n)) = true := by
    simp only [zeroI, Sys2Proof.encode, field_assemble, beq_iff_eq]; omega
  have ho : field (Sys2Proof.encode (.rdcr n)) 31 24 = 0x50 := opcode_assemble (by decide) (by omega)
  simp only [decode, ho, hz, hn, ifReservedZero]

theorem rdtp (x y : Nat) : Statement (.rdtp x y) := by
  intro h
  simp only [Instr.wellFormed, Bool.and_eq_true, decide_eq_true_eq] at h
  have hx : field (Sys2Proof.encode (.rdtp x y)) 20 16 = x := by
    simp only [Sys2Proof.encode, field_assemble]; omega
  have hy : field (Sys2Proof.encode (.rdtp x y)) 10 8 = y := by
    simp only [Sys2Proof.encode, field_assemble]; omega
  have hz : zeroXY (Sys2Proof.encode (.rdtp x y)) = true := by
    simp only [zeroXY, Sys2Proof.encode, field_assemble, Bool.and_eq_true, beq_iff_eq]; omega
  have ho : field (Sys2Proof.encode (.rdtp x y)) 31 24 = 0x51 := opcode_assemble (by decide) (by omega)
  simp only [decode, ho, hz, hx, hy, ifReservedZero]

theorem rdoo (i : Nat) : Statement (.rdoo i) := by
  intro h
  simp only [Instr.wellFormed, decide_eq_true_eq] at h
  have hn : field (Sys2Proof.encode (.rdoo i)) 7 0 = i := by
    simp only [Sys2Proof.encode, field_assemble]; omega
  have hz : zeroI (Sys2Proof.encode (.rdoo i)) = true := by
    simp only [zeroI, Sys2Proof.encode, field_assemble, beq_iff_eq]; omega
  have ho : field (Sys2Proof.encode (.rdoo i)) 31 24 = 0x52 := opcode_assemble (by decide) (by omega)
  simp only [decode, ho, hz, hn, ifReservedZero]

theorem rdpw (i : Nat) : Statement (.rdpw i) := by
  intro h
  simp only [Instr.wellFormed, decide_eq_true_eq] at h
  have hn : field (Sys2Proof.encode (.rdpw i)) 7 0 = i := by
    simp only [Sys2Proof.encode, field_assemble]; omega
  have hz : zeroI (Sys2Proof.encode (.rdpw i)) = true := by
    simp only [zeroI, Sys2Proof.encode, field_assemble, beq_iff_eq]; omega
  have ho : field (Sys2Proof.encode (.rdpw i)) 31 24 = 0x53 := opcode_assemble (by decide) (by omega)
  simp only [decode, ho, hz, hn, ifReservedZero]

end Sys2Proof.Laws.RoundTrip
end

