-- ==== Sys2Proof/Laws/Formats.lean ====
section
/-!
SUPPORT. The encoder's words are the words of the formats drawn field by field (R81 to R87), for every operand
that fits its field.
-/

namespace Sys2Proof.Format

/-- Laying bits side by side, as numbers. -/
theorem toNat_append_eq {m n : Nat} (a : BitVec m) (b : BitVec n) :
    (a ++ b).toNat = a.toNat * 2 ^ n + b.toNat := by
  rw [BitVec.toNat_append, ← Nat.shiftLeft_add_eq_or_of_lt b.isLt, Nat.shiftLeft_eq]

theorem wordZ_toNat (op : BitVec 8) : (wordZ op).toNat = op.toNat * 2 ^ 24 := by
  simp only [wordZ, toNat_append_eq]; simp

theorem wordXY_toNat (op : BitVec 8) {x y : Nat} (hx : x < 32) (hy : y < 8) :
    (wordXY op x y).toNat = op.toNat * 2 ^ 24 + (x * 2 ^ 16 + y * 2 ^ 8) := by
  simp only [wordXY, toNat_append_eq, BitVec.toNat_ofNat, Nat.zero_mod]
  rw [Nat.mod_eq_of_lt (show x < 2 ^ 5 by omega), Nat.mod_eq_of_lt (show y < 2 ^ 3 by omega)]
  omega

theorem wordP_toNat (op : BitVec 8) {x y v : Nat} (hx : x < 32) (hy : y < 8) (hv : v < 256) :
    (wordP op x y v).toNat = op.toNat * 2 ^ 24 + (x * 2 ^ 16 + y * 2 ^ 8 + v) := by
  simp only [wordP, toNat_append_eq, BitVec.toNat_ofNat, Nat.zero_mod]
  rw [Nat.mod_eq_of_lt (show x < 2 ^ 5 by omega), Nat.mod_eq_of_lt (show y < 2 ^ 3 by omega),
    Nat.mod_eq_of_lt (show v < 2 ^ 8 by omega)]
  omega

theorem wordC_toNat (op : BitVec 8) {w h : Nat} (hw : w < 65536) (hh : h < 256) :
    (wordC op w h).toNat = op.toNat * 2 ^ 24 + (w * 2 ^ 8 + h) := by
  simp only [wordC, toNat_append_eq, BitVec.toNat_ofNat]
  rw [Nat.mod_eq_of_lt (show w < 2 ^ 16 by omega), Nat.mod_eq_of_lt (show h < 2 ^ 8 by omega)]
  omega

theorem wordT_toNat (op : BitVec 8) {t : Nat} (ht : t < 65536) :
    (wordT op t).toNat = op.toNat * 2 ^ 24 + t := by
  simp only [wordT, toNat_append_eq, BitVec.toNat_ofNat, Nat.zero_mod]
  rw [Nat.mod_eq_of_lt (show t < 2 ^ 16 by omega)]
  omega

theorem wordB_toNat (op : BitVec 8) (b : Bool) {i : Nat} (hi : i < 65536) :
    (wordB op b i).toNat = op.toNat * 2 ^ 24 + (b.toNat * 2 ^ 16 + i) := by
  simp only [wordB, toNat_append_eq, BitVec.toNat_ofNat, BitVec.toNat_ofBool, Nat.zero_mod]
  rw [Nat.mod_eq_of_lt (show i < 2 ^ 16 by omega)]
  omega

theorem wordI_toNat (op : BitVec 8) {i : Nat} (hi : i < 256) :
    (wordI op i).toNat = op.toNat * 2 ^ 24 + i := by
  simp only [wordI, toNat_append_eq, BitVec.toNat_ofNat, Nat.zero_mod]
  rw [Nat.mod_eq_of_lt (show i < 2 ^ 8 by omega)]
  omega

/-- A word whose number is opcode and operands is the encoder's word. -/
theorem eq_assemble {w : Word} {op : BitVec 8} {n : Nat} (h : w.toNat = op.toNat * 2 ^ 24 + n) :
    w = assemble op.toNat n :=
  BitVec.eq_of_toNat_eq (by
    have := w.isLt
    rw [assemble, BitVec.toNat_ofNat, Nat.mod_eq_of_lt (by omega), h])

theorem encode_map {x y : Nat} (hx : x < 32) (hy : y < 8) : encode (.map x y) = wordXY 0x10#8 x y := by
  rw [eq_assemble (wordXY_toNat 0x10#8 hx hy)]; simp [encode]

theorem encode_rdtp {x y : Nat} (hx : x < 32) (hy : y < 8) : encode (.rdtp x y) = wordXY 0x51#8 x y := by
  rw [eq_assemble (wordXY_toNat 0x51#8 hx hy)]; simp [encode]

theorem encode_tpix {x y v : Nat} (hx : x < 32) (hy : y < 8) (hv : v < 256) :
    encode (.tpix x y v) = wordP 0x21#8 x y v := by
  rw [eq_assemble (wordP_toNat 0x21#8 hx hy hv)]; simp [encode]

theorem encode_canvas {w h : Nat} (hw : w < 65536) (hh : h < 256) : encode (.canvas w h) = wordC 0x30#8 w h := by
  rw [eq_assemble (wordC_toNat 0x30#8 hw hh)]; simp [encode]

theorem encode_loadt {t : Nat} (ht : t < 65536) : encode (.loadt t) = wordT 0x32#8 t := by
  rw [eq_assemble (wordT_toNat 0x32#8 ht)]; simp [encode]

theorem encode_emit {t : Nat} (b : Bool) (ht : t < 65536) : encode (.emit t b) = wordB 0x40#8 b t := by
  rw [eq_assemble (wordB_toNat 0x40#8 b ht)]; simp [encode]

theorem encode_render {c : Nat} (b : Bool) (hc : c < 65536) : encode (.render b c) = wordB 0x41#8 b c := by
  rw [eq_assemble (wordB_toNat 0x41#8 b hc)]; simp [encode]

theorem encode_rdcr {n : Nat} (hn : n < 256) : encode (.rdcr n) = wordI 0x50#8 n := by
  rw [eq_assemble (wordI_toNat 0x50#8 hn)]; simp [encode]

theorem encode_rdoo {i : Nat} (hi : i < 256) : encode (.rdoo i) = wordI 0x52#8 i := by
  rw [eq_assemble (wordI_toNat 0x52#8 hi)]; simp [encode]

theorem encode_rdpw {i : Nat} (hi : i < 256) : encode (.rdpw i) = wordI 0x53#8 i := by
  rw [eq_assemble (wordI_toNat 0x53#8 hi)]; simp [encode]

theorem encode_formatZ : encode .nop = wordZ 0x00#8 ∧ encode .rst = wordZ 0x01#8 ∧ encode .tclr = wordZ 0x20#8 ∧
    encode .encode = wordZ 0x22#8 ∧ encode .split = wordZ 0x31#8 := by decide

end Sys2Proof.Format
end

