-- ==== Sys2Proof/Tests/Slice0.lean ====
section
/-!
SUPPORT. Tests: ill-formed commands, words written out field by field from file 30's formats, one step of every
command against the vectors of file 95, and for every statement with hypotheses a witness that meets them.
Expected values are the spec's (file 95's S, P and section numbers stand in the comments).
-/

open Sys2Proof Sys2Proof.Machine Sys2Proof.Spec

namespace Sys2Proof.Tests

/-! ## Ill-formed commands (R100's operand ranges) -/

theorem test_illformed_map_x : (Instr.map 32 0).wellFormed = false := by decide
theorem test_illformed_map_y : (Instr.map 0 8).wellFormed = false := by decide
theorem test_illformed_tpix_x : (Instr.tpix 32 0 0).wellFormed = false := by decide
theorem test_illformed_tpix_y : (Instr.tpix 0 8 0).wellFormed = false := by decide
theorem test_illformed_tpix_v : (Instr.tpix 0 0 256).wellFormed = false := by decide
theorem test_illformed_canvas_w : (Instr.canvas 65536 1).wellFormed = false := by decide
theorem test_illformed_canvas_h : (Instr.canvas 1 256).wellFormed = false := by decide
theorem test_illformed_loadt : (Instr.loadt 65536).wellFormed = false := by decide
theorem test_illformed_emit : (Instr.emit 65536 true).wellFormed = false := by decide
theorem test_illformed_render : (Instr.render true 65536).wellFormed = false := by decide
theorem test_illformed_rdcr : (Instr.rdcr 256).wellFormed = false := by decide
theorem test_illformed_rdtp_x : (Instr.rdtp 32 0).wellFormed = false := by decide
theorem test_illformed_rdtp_y : (Instr.rdtp 0 8).wellFormed = false := by decide
theorem test_illformed_rdoo : (Instr.rdoo 256).wellFormed = false := by decide
theorem test_illformed_rdpw : (Instr.rdpw 256).wellFormed = false := by decide

/-- A value that fits its field and that the command rejects is a command (R100). -/
theorem test_wellformed_out_of_range : (Instr.map 24 5).wellFormed = true ∧ (Instr.rdoo 200).wellFormed = true := by
  decide

/-! ## Decoding: words written out field by field, opcode first (R81 to R87) -/

/-- Format Z (R81). -/
theorem test_decode_nop : decode (0x00#8 ++ 0#24) = .command .nop := by decide
theorem test_decode_rst : decode (0x01#8 ++ 0#24) = .command .rst := by decide
theorem test_decode_tclr : decode (0x20#8 ++ 0#24) = .command .tclr := by decide
theorem test_decode_encode : decode (0x22#8 ++ 0#24) = .command .encode := by decide
theorem test_decode_split : decode (0x31#8 ++ 0#24) = .command .split := by decide

/-- Format XY (R82). -/
theorem test_decode_map : decode (0x10#8 ++ 0b000#3 ++ 0b10111#5 ++ 0b00000#5 ++ 0b100#3 ++ 0x00#8)
    = .command (.map 23 4) := by decide
theorem test_decode_rdtp : decode (0x51#8 ++ 0b000#3 ++ 0b00001#5 ++ 0b00000#5 ++ 0b011#3 ++ 0x00#8)
    = .command (.rdtp 1 3) := by decide

/-- Format P (R83). -/
theorem test_decode_tpix : decode (0x21#8 ++ 0b000#3 ++ 0b01100#5 ++ 0b00000#5 ++ 0b010#3 ++ 0x33#8)
    = .command (.tpix 12 2 0x33) := by decide

/-- Format C (R84). -/
theorem test_decode_canvas : decode (0x30#8 ++ 0x1234#16 ++ 0x56#8) = .command (.canvas 0x1234 0x56) := by decide

/-- Format T (R85). -/
theorem test_decode_loadt : decode (0x32#8 ++ 0x00#8 ++ 0xABCD#16) = .command (.loadt 0xABCD) := by decide

/-- Format B (R86). -/
theorem test_decode_emit : decode (0x40#8 ++ 0b0000000#7 ++ 0b1#1 ++ 0x0102#16) = .command (.emit 0x0102 true) := by
  decide
theorem test_decode_render : decode (0x41#8 ++ 0b0000000#7 ++ 0b0#1 ++ 0xBEEF#16)
    = .command (.render false 0xBEEF) := by decide

/-- Format I (R87). -/
theorem test_decode_rdcr : decode (0x50#8 ++ 0x0000#16 ++ 0x04#8) = .command (.rdcr 4) := by decide
theorem test_decode_rdoo : decode (0x52#8 ++ 0x0000#16 ++ 0x17#8) = .command (.rdoo 23) := by decide
theorem test_decode_rdpw : decode (0x53#8 ++ 0x0000#16 ++ 0x83#8) = .command (.rdpw 131) := by decide

/-- Section 2.13's opcodes that are not assigned. -/
theorem test_illegal_opcodes :
    [0x02000000#32, 0x0F000000#32, 0x11000000#32, 0x23000000#32, 0x33000000#32, 0x42000000#32, 0x54000000#32,
      0xFFFFFFFF#32].all (fun w => decode w == .illegal .unassignedOpcode) = true := by decide

/-- Section 2.13, 2.2 and 2.6: a reserved bit is 1. -/
theorem test_illegal_reserved_bits :
    [0x00000001#32, 0x10200000#32, 0x10000800#32, 0x10000001#32, 0x21200000#32, 0x20800000#32, 0x22000001#32,
      0x31000001#32, 0x32010000#32, 0x40020000#32, 0x41020000#32, 0x50000100#32].all
      (fun w => decode w == .illegal .reservedBit) = true := by decide

/-- R89: no word selects two rows, since any two rows differ in a bit that both masks fix. -/
theorem test_rows_do_not_overlap :
    opcodeTable.Pairwise (fun a b => a.matchBits &&& (a.mask &&& b.mask) ≠ b.matchBits &&& (a.mask &&& b.mask)) := by
  decide

/-! ## One step of every command -/

/-- The state after one step on a command word. -/
def after (w : Word) (s : State) : State :=
  match step (placeCommand w s) with
  | .next t => t
  | .fault _ => s
  | .refused _ => s

/-- The response of that step. -/
def response (w : Word) (s : State) : Option Response := (after w s).responses.getLast?

/-- A bound canvas of `w` by `h` with memory for it (file 95's states). -/
def boundTo (w : BitVec 16) (h : BitVec 8) (len : Nat) (cells : Memory) : State :=
  { State.reset with status := 0x0001#16, canvasW := w, canvasH := h, canvasLen := len, canvas := cells }

/-- `PRE(kind, t)` one call each, for the tiles 0, 1 and 7 (2.11). -/
def onePre : List PreRow :=
  [⟨.onoff, 0, [⟨0xFD, 0⟩]⟩, ⟨.blink, 0, [⟨0xFD, 0⟩]⟩, ⟨.pwm, 0, [⟨0xFD, 0⟩]⟩,
   ⟨.onoff, 1, [⟨0xFD, 1⟩]⟩, ⟨.blink, 1, [⟨0xFD, 1⟩]⟩, ⟨.pwm, 1, [⟨0xFD, 1⟩]⟩,
   ⟨.onoff, 7, [⟨0xFD, 7⟩]⟩, ⟨.blink, 7, [⟨0xFD, 7⟩]⟩, ⟨.pwm, 7, [⟨0xFD, 7⟩]⟩]

/-- A transport that answers `ok` `n` times, then `fail`. -/
def okThenFail (n : Nat) : List TxAnswer := List.replicate n .ok ++ [.fail]

/-- P4's two-tile canvas. -/
def twoTiles : State :=
  { boundTo 48 5 240 [(0, 0xFF), (72, 0x80), (239, 0x40)] with
    preTable := onePre, answers := List.replicate 364 .ok }

theorem test_nop : response 0x00000000#32 State.reset = some ⟨.ok, 0#32⟩ := by decide

/-- 2.12: `RST` from `STATUS = 0x001F`. -/
theorem test_rst : (after 0x01000000#32 { boundTo 100 5 0 [] with status := 0x001F#16, tileIx := 3#16 }).status = 0#16 ∧
    (after 0x01000000#32 { boundTo 100 5 0 [] with status := 0x001F#16, tileIx := 3#16 }).tileIx = 0#16 := by decide

/-- S3, 2.1. -/
theorem test_map_last_led : response 0x10170400#32 State.reset = some ⟨.ok, 0x00191777#32⟩ := by decide
/-- 2.2. -/
theorem test_map_outside : response 0x10180000#32 State.reset = some ⟨.raised .boundsViolation, 0x10180000#32⟩ := by
  decide

theorem test_tclr : (after 0x20000000#32 (after 0x21030140#32 State.reset)).tile = blankTile := by decide +kernel

/-- P2 line 3. -/
theorem test_tpix : readPixel (after 0x21010380#32 State.reset).tile 1 3 = some 0x80#8 ∧
    readPixel (after 0x21010380#32 State.reset).tile 3 1 = some 0#8 := by decide +kernel
/-- 2.6. -/
theorem test_tpix_outside : after 0x21000501#32 State.reset =
    { State.reset with
      status := 0x0004#16, tick := 1, responses := [⟨.raised .boundsViolation, 0x21000501#32⟩] } := by decide +kernel

/-- R132's example. -/
theorem test_encode : readOnOff (after 0x22000000#32 (after 0x21010380#32 State.reset)).onoff 1 = some 0x01#8 ∧
    readPwm (after 0x22000000#32 (after 0x21010380#32 State.reset)).pwm 8 = some 0x80#8 := by decide +kernel
/-- S6: an all-on tile. -/
theorem test_encode_all_on : (after 0x22000000#32
      { State.reset with tile := Vector.replicate 24 (Vector.replicate 5 0xFF#8) }).onoff.toList =
    (List.replicate 12 [0xFF#8, 0x03#8]).flatten := by decide +kernel

/-- S4. -/
theorem test_canvas : response 0x30006405#32 State.reset = some ⟨.ok, 0x00000004#32⟩ ∧
    (after 0x30006405#32 State.reset).canvasW = 100#16 ∧ (after 0x30006405#32 State.reset).canvasH = 5#8 := by decide
/-- 2.8: the earlier binding is kept. -/
theorem test_canvas_zero : (after 0x30000005#32 (boundTo 100 5 0 [])).status = 0x0003#16 ∧
    (after 0x30000005#32 (boundTo 100 5 0 [])).canvasW = 100#16 := by decide

/-- S4, 2.7. -/
theorem test_split : response 0x31000000#32 (boundTo 100 5 0 []) = some ⟨.ok, 0x00040004#32⟩ ∧
    response 0x31000000#32 (boundTo 65535 255 0 []) = some ⟨.ok, 0x000F0AAA#32⟩ := by decide
theorem test_split_unbound : response 0x31000000#32 State.reset = some ⟨.raised .constructionError, 0x31000000#32⟩ := by
  decide

/-- P3 lines 7 and 11: the byte of canvas index 495. -/
theorem test_loadt : readPixel (after 0x32000003#32 (boundTo 100 5 500 [(472, 0xD8), (495, 0xEF)])).tile 23 4 = some 0xEF#8 ∧
    response 0x32000003#32 (boundTo 100 5 500 [(472, 0xD8), (495, 0xEF)]) = some ⟨.ok, 0x00000048#32⟩ := by
  decide +kernel
/-- 2.8: index 239 is not below 216. -/
theorem test_loadt_short : after 0x32000001#32 (boundTo 48 5 216 []) =
    { boundTo 48 5 216 [] with
      status := 0x0005#16, tick := 1, responses := [⟨.raised .boundsViolation, 0x32000001#32⟩] } := by decide +kernel

/-- 2.11: call 26 of `EMIT 7, 0` fails. -/
theorem test_emit_fails : response 0x40000007#32 { State.reset with preTable := onePre, answers := okThenFail 25 } =
      some ⟨.raised .transportFailure, 0x00010007#32⟩ ∧
    (after 0x40000007#32 { State.reset with preTable := onePre, answers := okThenFail 25 }).trace.length = 26 := by
  decide +kernel
/-- 2.10: with `b = 0` slot 130 is the last call and gets 0xFF. -/
theorem test_emit : (after 0x40000007#32
      { State.reset with preTable := onePre, answers := List.replicate 182 .ok }).trace.getLast? =
    some ⟨.slot 130#8 0xFF#8, .ok⟩ := by decide +kernel

/-- P4 line 4: what tile 1's brightness table holds, and the response. -/
theorem test_render : response 0x4101BEEF#32 twoTiles = some ⟨.ok, 0x00000002#32⟩ ∧
    (after 0x4101BEEF#32 twoTiles).trace[352]? = some ⟨.slot 119#8 0x40#8, .ok⟩ := by decide +kernel
/-- P5 part B: call 212 fails. -/
theorem test_render_fails : response 0x41010000#32 { twoTiles with answers := okThenFail 211 } =
      some ⟨.raised .transportFailure, 0x00010001#32⟩ ∧
    (after 0x41010000#32 { twoTiles with answers := okThenFail 211 }).trace.length = 212 := by decide +kernel

/-- P3 line 6; 2.12. -/
theorem test_rdcr : response 0x50000003#32 (boundTo 100 5 0 []) = some ⟨.ok, 0x00000004#32⟩ ∧
    response 0x50000001#32 (boundTo 100 5 0 []) = some ⟨.ok, 0x00000064#32⟩ := by decide
theorem test_rdcr_reserved : after 0x50000005#32 State.reset =
    { State.reset with
      status := 0x0010#16, tick := 1, responses := [⟨.raised .illegalCommand, 0x50000005#32⟩] } := by decide +kernel

/-- P2 line 22. -/
theorem test_rdtp : response 0x51010300#32 (after 0x21010380#32 State.reset) = some ⟨.ok, 0x00000080#32⟩ := by
  decide +kernel
/-- S11. -/
theorem test_rdtp_outside : response 0x51000500#32 State.reset = some ⟨.raised .boundsViolation, 0x51000500#32⟩ := by
  decide

/-- R195's example. -/
theorem test_rdoo : response 0x52000017#32 (after 0x22000000#32 (after 0x211704FF#32 State.reset)) =
    some ⟨.ok, 0x00000002#32⟩ := by decide +kernel
/-- S11. -/
theorem test_rdoo_outside : response 0x52000018#32 State.reset = some ⟨.raised .boundsViolation, 0x52000018#32⟩ := by
  decide

/-- R196's example. -/
theorem test_rdpw : response 0x53000077#32 (after 0x22000000#32 (after 0x21170440#32 State.reset)) =
    some ⟨.ok, 0x00000040#32⟩ := by decide +kernel
/-- S11: 130 is the last legal index. -/
theorem test_rdpw_edges : response 0x53000082#32 State.reset = some ⟨.ok, 0#32⟩ ∧
    response 0x53000083#32 State.reset = some ⟨.raised .boundsViolation, 0x53000083#32⟩ := by decide

/-- P7 line 1. -/
theorem test_illegal_word : after 0x02000000#32 (boundTo 48 5 0 []) =
    { boundTo 48 5 0 [] with
      status := 0x0011#16, tick := 1, responses := [⟨.raised .illegalCommand, 0x02000000#32⟩] } := by decide +kernel

/-- R240: the reset input leaves the responses alone; R34's registers. -/
theorem test_reset_input : step { boundTo 48 5 0 [] with inputs := [.reset] } =
    .next { State.reset with tick := 1 } := rfl

/-- R242, log 9: a reset inside a command that makes no call leaves the reset state, no response, and the byte the
host wrote meanwhile. -/
theorem test_reset_during : step { boundTo 24 5 120 [] with inputs := [.resetDuring 0#32 [(3, 9)]] } =
    .next { State.reset with canvasLen := 120, canvas := [(3, 9)], tick := 1 } := by
  rw [show step { boundTo 24 5 120 [] with inputs := [.resetDuring 0#32 [(3, 9)]] } = .next _ from rfl]
  simp [State.cutTo, State.settle, State.take, State.resetTae, boundTo, State.reset, State.respond,
    Memory.writeAll, Memory.write, Memory.blank]

/-- R53: the host's write is in the canvas; writing 0x00 takes the entry out again. -/
theorem test_host_write : ((boundTo 24 5 120 [(7, 1)]).canvas.write 3 9) = [(3, 9), (7, 1)] ∧
    ((boundTo 24 5 120 [(7, 1)]).canvas.write 7 0) = [] := by decide

/-! ## Witnesses: for each statement with hypotheses, operands and states that meet them -/

/-- A list of one action for the host. -/
def doing (i : HostInput) (s : State) : State := { s with inputs := [i] }

theorem witness_DecodeOfEncodeGivesTheCommand :
    (Instr.map 31 7).wellFormed = true ∧ (Instr.tpix 31 7 255).wellFormed = true ∧
    (Instr.canvas 65535 255).wellFormed = true ∧ (Instr.loadt 65535).wellFormed = true ∧
    (Instr.emit 65535 true).wellFormed = true ∧ (Instr.render false 65535).wellFormed = true ∧
    (Instr.rdcr 255).wellFormed = true ∧ (Instr.rdtp 31 7).wellFormed = true ∧
    (Instr.rdoo 255).wellFormed = true ∧ (Instr.rdpw 255).wellFormed = true := by decide

theorem witness_EncodeOfADecodedWordGivesTheWord : decode 0x30FFFFFF#32 = .command (.canvas 65535 255) := by decide

theorem witness_WordSelectsARowByMatchAndMask :
    (⟨"MAP", 0x10000000#32, 0xFFE0F8FF#32⟩ : OpcodeRow) ∈ opcodeTable ∧
    0x101F0700#32 &&& 0xFFE0F8FF#32 = 0x10000000#32 ∧ 0x10200000#32 &&& 0xFFE0F8FF#32 ≠ 0x10000000#32 := by decide

theorem witness_IllegalWordSetsOnlyItsStickyBit :
    (∀ r ∈ opcodeTable, 0x02000000#32 &&& r.mask ≠ r.matchBits) ∧
    (0x50000005#32 &&& 0xFFFFFF00#32 = 0x50000000#32 ∧ 5 ≤ (0x50000005#32 &&& 0x000000FF#32).toNat) ∧
    (0x500000FF#32 &&& 0xFFFFFF00#32 = 0x50000000#32 ∧ 5 ≤ (0x500000FF#32 &&& 0x000000FF#32).toNat) := by decide

theorem witness_StepExecutesTheDecodedCommand :
    (doing (.command 0x32000000#32 [(0, 1)]) (boundTo 24 5 120 [])).inputs = .command 0x32000000#32 [(0, 1)] :: [] ∧
    (∀ c ∈ [((0, 1) : Host.Cell)], c.1 < (boundTo 24 5 120 []).canvasLen) ∧
    decode 0x32000000#32 = .command (.loadt 0) ∧ decode 0x32010000#32 = .illegal .reservedBit := by decide

theorem witness_StepWaitsForTheHost : State.reset.inputs = [] := by decide

theorem witness_ResetInputIsRstWithoutAResponse :
    (doing .reset (boundTo 24 5 120 [])).inputs = .reset :: [] := by decide

theorem witness_ResetInsideACommandCutsTheTrace :
    (doing (.resetDuring 0x41000000#32 [(119, 7)]) (boundTo 24 5 120 [])).inputs =
      .resetDuring 0x41000000#32 [(119, 7)] :: [] ∧
    (∀ c ∈ [((119, 7) : Host.Cell)], c.1 < (boundTo 24 5 120 []).canvasLen) := by decide

theorem witness_HostWriteIsSeenByCanvasReads :
    (doing (.writeCanvas 119 7) (boundTo 24 5 120 [(0, 0xFF)])).inputs = .writeCanvas 119 7 :: [] ∧
    119 < (boundTo 24 5 120 [(0, 0xFF)]).canvasLen ∧ (boundTo 24 5 120 [(0, 0xFF)]).canvas.wf := by decide

theorem witness_HostWriteOutsideTheCanvasIsRefused :
    (doing (.writeCanvas 120 7) (boundTo 24 5 120 [])).inputs = .writeCanvas 120 7 :: [] ∧
    (boundTo 24 5 120 []).canvasLen ≤ 120 ∧
    (doing (.command 0#32 [(0, 7), (120, 7)]) (boundTo 24 5 120 [])).inputs = .command 0#32 [(0, 7), (120, 7)] :: [] ∧
    (doing (.resetDuring 0#32 [(120, 7)]) (boundTo 24 5 120 [])).inputs = .resetDuring 0#32 [(120, 7)] :: [] ∧
    ∃ c ∈ [((0, 7) : Host.Cell), (120, 7)], (boundTo 24 5 120 []).canvasLen ≤ c.1 := by decide

/-- Each clause: a read that races, one that does not, one outside. -/
theorem witness_CanvasReadGivesTheOldOrARacingByte :
    3 < ({ boundTo 24 5 120 [] with racing := [(3, 9)] } : State).canvasLen ∧
    (119 < (boundTo 24 5 120 []).canvasLen ∧ ∀ c ∈ [((3, 9) : Host.Cell)], c.1 ≠ 119) ∧
    (boundTo 24 5 120 []).canvasLen ≤ 120 := by decide

theorem witness_StickyBitsStaySetUntilRst :
    Instr.nop ≠ .rst ∧ ({ State.reset with status := 0x0008#16 } : State).sticky .transportFailure = true ∧
    exec .nop { State.reset with status := 0x0008#16 } =
      .next { State.reset with status := 0x0008#16, responses := [⟨.ok, 0#32⟩] } :=
  ⟨by decide, by decide, rfl⟩

theorem witness_StickyBitsDoNotGateAnyCommand : 0x001E#16 &&& 0x001E#16 = 0x001E#16 := by decide

theorem witness_BoundChangesOnlyByCanvasAndRst :
    (exec (.canvas 1 1) State.reset = .next { boundTo 1 1 0 [] with responses := [⟨.ok, 0#32⟩] } ∧
      (boundTo 1 1 0 []).bound = true ∧ State.reset.bound = false) ∧
    exec .rst (boundTo 1 1 0 []) = .next { State.reset with responses := [⟨.ok, 0#32⟩] } :=
  ⟨⟨rfl, by decide, by decide⟩, rfl⟩

theorem witness_OnlyTheListedCommandsWriteEachRegister :
    exec .rst { boundTo 48 5 0 [] with
        tileIx := 1#16, tile := Vector.replicate 24 (Vector.replicate 5 1#8),
        onoff := Vector.replicate 24 1#8 } = .next { State.reset with responses := [⟨.ok, 0#32⟩] } ∧
    (boundTo 48 5 0 []).canvasW ≠ State.reset.canvasW ∧
    (Vector.replicate 24 (Vector.replicate 5 1#8) : Tile) ≠ State.reset.tile ∧
    (Vector.replicate 24 1#8 : OnOff) ≠ State.reset.onoff :=
  ⟨rfl, by decide, by decide +kernel, by decide +kernel⟩

theorem witness_InvariantIsKeptByEveryStep :
    State.reset.Inv ∧ ∃ t, step (placeCommand 0x30001805#32 State.reset) = .next t :=
  ⟨⟨by decide, by decide, by decide, by decide +kernel, by decide +kernel, by decide, by decide, rfl⟩, _, rfl⟩

/-- Boundary coordinates of both clauses of the statements about `MAP`, `TPIX` and `RDTP`. -/
theorem witness_coordinates : (23 < 24 ∧ 4 < 5) ∧ ¬ (24 < 24 ∧ 0 < 5) ∧ ¬ (23 < 24 ∧ 5 < 5) ∧ ¬ (31 < 24 ∧ 7 < 5) := by
  decide

/-- Boundary values of the mapper's statements: the last LED, and the last bit of an odd byte. -/
theorem witness_mapper : registerIndex (ledIndex 23 4) = 23 ∧ bitInByte (ledIndex 23 4) = 1 ∧
    registerIndex 119 = 23 ∧ 119 = 23 / 2 * 10 + 23 % 2 * 8 + 1 := by decide

theorem witness_EncodeIsPureAndOrderFree :
    State.reset.tile = (boundTo 48 5 0 []).tile ∧ tilePixels.reverse.Perm tilePixels :=
  ⟨rfl, List.reverse_perm _⟩

theorem witness_EncodeOfAllOffAndAllOnTiles :
    (∀ x < 24, ∀ y < 5, readPixel State.reset.tile x y = some 0x00#8) ∧
    (∀ x < 24, ∀ y < 5, readPixel (Vector.replicate 24 (Vector.replicate 5 1#8)) x y ≠ some 0x00#8) := by
  decide +kernel

theorem witness_canvas_operands : (1 ≠ 0 ∧ 1 ≠ 0) ∧ (65535 ≠ 0 ∧ 255 ≠ 0) ∧ (0 = 0 ∨ 5 = 0) ∧ (5 = 0 ∨ 0 = 0) := by
  decide

theorem witness_SplitAnswersTilesAndDroppedColumns :
    (boundTo 23 5 0 []).bound = true ∧ State.reset.bound = false := by decide

theorem witness_ConstructionErrorCases :
    State.reset.bound = false ∧ (Instr.split).mnemonic ∈ ["SPLIT", "LOADT", "RENDER"] ∧
    (Instr.loadt 65535).mnemonic ∈ ["SPLIT", "LOADT", "RENDER"] ∧
    (Instr.render true 7).mnemonic ∈ ["SPLIT", "LOADT", "RENDER"] := by decide

/-- Each clause: unbound; no such tile, too tall, a read outside; a whole slice. -/
theorem witness_LoadtCopiesTheWholeSliceOrNothing :
    State.reset.bound = false ∧
    ((boundTo 100 5 500 []).bound = true ∧ (boundTo 100 5 500 []).canvasW.toNat / 24 ≤ 4) ∧
    5 < (boundTo 24 6 144 []).canvasH.toNat ∧
    (∃ x < 24, ∃ y < 5, y < (boundTo 48 5 216 []).canvasH.toNat ∧
      (boundTo 48 5 216 []).canvasLen ≤ 24 * 1 + x + y * (boundTo 48 5 216 []).canvasW.toNat) ∧
    (3 < (boundTo 100 5 500 []).canvasW.toNat / 24 ∧ (boundTo 100 5 500 []).canvasH.toNat ≤ 5 ∧
      ∀ x < 24, ∀ y < 5, y < (boundTo 100 5 500 []).canvasH.toNat →
        24 * 3 + x + y * (boundTo 100 5 500 []).canvasW.toNat < (boundTo 100 5 500 []).canvasLen) :=
  ⟨by decide, by decide, by decide, ⟨0, by decide, 4, by decide, by decide, by decide⟩, by decide, by decide,
    by decide +kernel⟩

theorem witness_CanvasReady : CanvasReady twoTiles ∧ 24 ≤ twoTiles.canvasW.toNat ∧ 1 < twoTiles.canvasW.toNat / 24 :=
  ⟨⟨by decide, rfl, by decide, by decide⟩, by decide, by decide⟩

theorem witness_EmitSendsTheThreeTablesInOrder :
    ∀ m < (tileSends twoTiles (BitVec.ofNat 16 1) true twoTiles.onoff twoTiles.pwm).length,
      answerAt twoTiles m = .ok := by decide +kernel

/-- At the first and at the last call of a tile. -/
theorem witness_EmitStopsAtTheFirstFailingCall :
    (0 < (tileSends twoTiles (BitVec.ofNat 16 1) true twoTiles.onoff twoTiles.pwm).length ∧
      answerAt { twoTiles with answers := okThenFail 0 } 0 = .fail) ∧
    (181 < (tileSends twoTiles (BitVec.ofNat 16 1) true twoTiles.onoff twoTiles.pwm).length ∧
      (∀ j < 181, answerAt { twoTiles with answers := okThenFail 181 } j = .ok) ∧
      answerAt { twoTiles with answers := okThenFail 181 } 181 = .fail) := by decide +kernel

theorem witness_EmitCostsThePreWritesAnd179SlotWrites :
    3 = (preWrites twoTiles .onoff (BitVec.ofNat 16 1)).length + (preWrites twoTiles .blink (BitVec.ofNat 16 1)).length
      + (preWrites twoTiles .pwm (BitVec.ofNat 16 1)).length ∧
    ∀ m < 3 + 179, answerAt twoTiles m = .ok := by decide +kernel

theorem witness_RenderOfNoTilesSendsNothing :
    (boundTo 23 5 0 []).bound = true ∧ (boundTo 23 5 0 []).canvasW.toNat < 24 := by decide

theorem witness_RenderOfATallCanvasFaultsAtOnce :
    (boundTo 24 6 144 []).bound = true ∧ 24 ≤ (boundTo 24 6 144 []).canvasW.toNat ∧
    5 < (boundTo 24 6 144 []).canvasH.toNat := by decide

/-- The 364 calls of two tiles, all answered `ok` (with `witness_CanvasReady`). -/
theorem witness_RenderSendsEveryTileInOrder :
    ∀ m < (rendersBefore twoTiles true (twoTiles.canvasW.toNat / 24)).length, answerAt twoTiles m = .ok := by
  decide +kernel

/-- P5 part B: tile 1, its call 29; and R216's case: the first call of tile 0, where tile 1 cannot be read. -/
theorem witness_RenderStopsAtTheFirstFailingCall :
    (twoTiles.bound = true ∧ twoTiles.racing = [] ∧ twoTiles.canvasH.toNat = 5 ∧ twoTiles.canvasW.toNat = 48 ∧
      1 < 48 / 24) ∧
    (∀ t ≤ 1, ∀ x < 24, ∀ y < 5, 24 * t + x + y * 48 < twoTiles.canvasLen) ∧
    ((∀ t ≤ 0, ∀ x < 24, ∀ y < 5, 24 * t + x + y * 48 < ({ twoTiles with canvasLen := 216 } : State).canvasLen) ∧
      0 < (renderSends { twoTiles with canvasLen := 216, answers := okThenFail 0 } true 0).length ∧
      answerAt { twoTiles with canvasLen := 216, answers := okThenFail 0 } 0 = .fail) ∧
    29 < (renderSends { twoTiles with answers := okThenFail 211 } true 1).length ∧
    (∀ j < (rendersBefore { twoTiles with answers := okThenFail 211 } true 1).length + 29,
      answerAt { twoTiles with answers := okThenFail 211 } j = .ok) ∧
    answerAt { twoTiles with answers := okThenFail 211 }
      ((rendersBefore { twoTiles with answers := okThenFail 211 } true 1).length + 29) = .fail :=
  ⟨⟨by decide, rfl, by decide, by decide, by decide⟩, by decide +kernel,
    ⟨by decide +kernel, by decide +kernel, by decide⟩, by decide +kernel, by decide +kernel, by decide +kernel⟩

/-- P6 part C: tile 1 is the first that cannot be read; and a memory of no bytes, where tile 0 is. -/
theorem witness_RenderStopsAtTheFirstUnreadableTile :
    (twoTiles.bound = true ∧ twoTiles.racing = [] ∧ twoTiles.canvasH.toNat = 5 ∧ twoTiles.canvasW.toNat = 48 ∧
      1 < 48 / 24) ∧
    (∀ t < 1, ∀ x < 24, ∀ y < 5, 24 * t + x + y * 48 < ({ twoTiles with canvasLen := 216 } : State).canvasLen) ∧
    (∃ x < 24, ∃ y < 5, ({ twoTiles with canvasLen := 216 } : State).canvasLen ≤ 24 * 1 + x + y * 48) ∧
    (∃ x < 24, ∃ y < 5, ({ twoTiles with canvasLen := 0 } : State).canvasLen ≤ 24 * 0 + x + y * 48) ∧
    (∀ j < (rendersBefore { twoTiles with canvasLen := 216 } false 1).length,
      answerAt { twoTiles with canvasLen := 216 } j = .ok) :=
  ⟨⟨by decide, rfl, by decide, by decide, by decide⟩, by decide +kernel,
    ⟨0, by decide, 4, by decide, by decide⟩, ⟨0, by decide, 0, by decide, by decide⟩,
    by decide +kernel⟩

/-- Boundary indices of the read-back statements. -/
theorem witness_indices : 23 < 24 ∧ 24 ≤ 24 ∧ 130 < 131 ∧ 131 ≤ 131 ∧ 5 ≤ 5 := by decide

end Sys2Proof.Tests
end

