-- ==== Sys2Proof/Proofs/Scope.lean ====
section
/-!
The step that runs a command word: what a command leaves to the host and the platform, what `runWord` answers to a
word of each kind, and how `step` takes a word from the host's list. Settles the family `00_scope.md`.
-/

open Sys2Proof Sys2Proof.Machine

namespace Sys2Proof.Machine

/-- The parts around the TAE that no command changes: the host's and the platform's (R32, R53). The transport is
not among them. -/
structure SameEnvironment (s t : State) : Prop where
  canvas : t.canvas = s.canvas
  canvasLen : t.canvasLen = s.canvasLen
  racing : t.racing = s.racing
  inputs : t.inputs = s.inputs
  preTable : t.preTable = s.preTable
  tick : t.tick = s.tick

theorem Kept.sameEnvironment {s t : State} (h : Kept s t) : SameEnvironment s t :=
  ⟨h.canvas, h.canvasLen, h.racing, h.inputs, h.preTable, h.tick⟩

theorem SameEnvironment.respond {s t : State} (h : SameEnvironment s t) (c : RespCode) (d : Word) :
    SameEnvironment s (t.respond c d) :=
  ⟨h.canvas, h.canvasLen, h.racing, h.inputs, h.preTable, h.tick⟩

theorem SameEnvironment.raise {s t : State} (h : SameEnvironment s t) (k : FaultKind) (d : Word) :
    SameEnvironment s (t.raise k d) :=
  ⟨h.canvas, h.canvasLen, h.racing, h.inputs, h.preTable, h.tick⟩

theorem sameEnvironment_encodeBuffers (s : State) : SameEnvironment s s.encodeBuffers :=
  ⟨by simp, by simp, by simp, by simp, by simp, by simp⟩

theorem renderTiles_sameEnvironment {cmd : Word} {b : Bool} {ts : List Nat} {s u : State}
    (h : (renderTiles cmd b ts s).state = u) : SameEnvironment s u :=
  h ▸ (renderTiles_kept cmd b ts s).sameEnvironment

/-- Whatever a command does, the environment stays; only `RENDER`'s loop needs more than its shape. -/
theorem Effect.sameEnvironment {i : Instr} {s t : State} (h : Effect i s t) : SameEnvironment s t := by
  cases h with
  | encoded => exact (sameEnvironment_encodeBuffers s).respond _ _
  | rendered _ _ u _ _ hu =>
    have henv : SameEnvironment s u := renderTiles_sameEnvironment (congrArg Work.state hu)
    exact henv.respond _ _
  | renderFailed _ _ _ _ u _ _ hu =>
    have henv : SameEnvironment s u := renderTiles_sameEnvironment (congrArg Work.state hu)
    exact henv.raise _ _
  | answered | faulted | reset | tileWritten | boundTo | loaded | emitted | emitFailed =>
    exact ⟨rfl, rfl, rfl, rfl, rfl, rfl⟩

theorem runWord_of_command {w : Word} {i : Instr} (h : decode w = .command i) (s : State) :
    runWord w s = exec i s := by
  simp only [runWord, h]

/-- R90: a word that is no command raises IllegalCommand with the word as data. -/
theorem runWord_of_illegal {w : Word} {e : Illegal} (h : decode w = .illegal e) (s : State) :
    runWord w s = .next (s.raise .illegalCommand w) := by
  simp only [runWord, h, answerIllegal]

/-- Every word has a next state, in the same environment. -/
theorem runWord_next (w : Word) (s : State) : ∃ t, runWord w s = .next t ∧ SameEnvironment s t := by
  cases h : decode w with
  | command i =>
    obtain ⟨t, ht, heffect⟩ := exec_effect i s
    exact ⟨t, (runWord_of_command h s).trans ht, heffect.sameEnvironment⟩
  | illegal e => exact ⟨_, runWord_of_illegal h s, rfl, rfl, rfl, rfl, rfl, rfl⟩

theorem writable_iff (s : State) (ws : List Host.Cell) : s.writable ws = true ↔ ∀ c ∈ ws, c.1 < s.canvasLen := by
  simp [State.writable]

/-- A word at the port, with racing writes inside the canvas, is run on the state in which it is taken. -/
theorem step_of_command {s : State} {w : Word} {writes : List Host.Cell} {rest : List HostInput}
    (hinputs : s.inputs = .command w writes :: rest) (hwrites : ∀ c ∈ writes, c.1 < s.canvasLen) :
    step s = settleOutcome (runWord w (s.take rest writes)) := by
  simp only [step, hinputs, (writable_iff s writes).mpr hwrites]

/-- Committing the racing writes of an unchanged environment: they go to the canvas that the command found. -/
theorem SameEnvironment.settle_eq {s t : State} (h : SameEnvironment s t) :
    t.settle = { t with canvas := s.canvas.writeAll s.racing, racing := [] } := by
  rw [State.settle, h.canvas, h.racing]

end Sys2Proof.Machine

namespace Sys2Proof.Proofs.Scope

/-- Settles O6: `runWord` always has a next state in the same environment, so the writes that `step` commits are
the host's, and the canvas they go to is the one before the command. -/
theorem stepExecutesTheDecodedCommand : Obligations.StepExecutesTheDecodedCommand := by
  rintro s taken w writes rest hinputs hwrites rfl
  obtain ⟨t, ht, henv⟩ := runWord_next w (s.take rest writes)
  refine ⟨t, ht, fun i hi => ?_, fun e he => ?_, ?_⟩
  · exact (runWord_of_command hi _).symm.trans ht
  · exact Host.Outcome.next.inj (ht.symm.trans (runWord_of_illegal he _))
  · calc step s = settleOutcome (runWord w (s.take rest writes)) := step_of_command hinputs hwrites
      _ = .next t.settle := by rw [ht, settleOutcome]
      _ = .next { t with canvas := s.canvas.writeAll writes, racing := [] } := by
        rw [henv.settle_eq, take_canvas, take_racing]

end Sys2Proof.Proofs.Scope
end

