-- ==== Sys2Proof/Proofs/Registers.lean ====
section
/-!
The TAE's registers and buffers: which commands leave each of them (R22, R28 to R30), what they hold after reset
(R34), the invariant there, and waiting for the host. Settles the family `10_state.md`.
-/

open Sys2Proof Sys2Proof.Machine

namespace Sys2Proof.Machine

/-! ## What a command leaves as it was -/

theorem kept_of_renderTiles {cmd : Word} {b : Bool} {ts : List Nat} {s u : State}
    (h : (renderTiles cmd b ts s).state = u) : Kept s u :=
  h ▸ renderTiles_kept cmd b ts s

section
variable {i : Instr} {s t : State}

/-- Only `CANVAS` and `RST` write `STATUS`, and every command that responds with a fault. -/
theorem Effect.status_eq_or_faulted (h : Effect i s t) (hi : i.mnemonic ∉ ["CANVAS", "RST"]) :
    t.status = s.status ∨ ∃ k d, t.responses = s.responses ++ [⟨.raised k, d⟩] := by
  cases h with
  | reset he | boundTo _ _ he => simp [he, Instr.mnemonic] at hi
  | faulted | emitFailed => exact .inr ⟨_, _, rfl⟩
  | renderFailed _ _ k d u _ _ hu =>
    have hkept : Kept s u := kept_of_renderTiles (congrArg Work.state hu)
    exact .inr ⟨k, d, by rw [raise_responses, hkept.responses]⟩
  | rendered _ _ u _ _ hu => exact .inl (kept_of_renderTiles (congrArg Work.state hu)).status
  | encoded => exact .inl (encodeBuffers_status s)
  | answered | tileWritten | loaded | emitted => exact .inl rfl

theorem Effect.canvasSize_eq (h : Effect i s t) (hi : i.mnemonic ∉ ["CANVAS", "RST"]) :
    t.canvasW = s.canvasW ∧ t.canvasH = s.canvasH := by
  cases h with
  | reset he | boundTo _ _ he => simp [he, Instr.mnemonic] at hi
  | rendered _ _ u _ _ hu | renderFailed _ _ _ _ u _ _ hu =>
    have hkept : Kept s u := kept_of_renderTiles (congrArg Work.state hu)
    exact ⟨hkept.canvasW, hkept.canvasH⟩
  | encoded => exact ⟨encodeBuffers_canvasW s, encodeBuffers_canvasH s⟩
  | answered | faulted | tileWritten | loaded | emitted | emitFailed => exact ⟨rfl, rfl⟩

theorem Effect.tileIx_eq (h : Effect i s t)
    (hi : i.mnemonic ∉ ["CANVAS", "LOADT", "EMIT", "RENDER", "RST"]) : t.tileIx = s.tileIx := by
  cases h with
  | reset he | boundTo _ _ he | loaded _ _ he | emitted _ _ _ he | emitFailed _ _ _ _ he
  | rendered _ _ _ he | renderFailed _ _ _ _ _ he => simp [he, Instr.mnemonic] at hi
  | encoded => exact encodeBuffers_tileIx s
  | answered | faulted | tileWritten => rfl

theorem Effect.tile_eq (h : Effect i s t)
    (hi : i.mnemonic ∉ ["TCLR", "TPIX", "LOADT", "RENDER", "RST"]) : t.tile = s.tile := by
  cases h with
  | reset he | loaded _ _ he | rendered _ _ _ he | renderFailed _ _ _ _ _ he =>
    simp [he, Instr.mnemonic] at hi
  | tileWritten _ he =>
    rcases he with rfl | ⟨x, y, v, rfl⟩ <;> simp [Instr.mnemonic] at hi
  | encoded => exact encodeBuffers_tile s
  | answered | faulted | boundTo | emitted | emitFailed => rfl

theorem Effect.buffers_eq (h : Effect i s t) (hi : i.mnemonic ∉ ["ENCODE", "RENDER", "RST"]) :
    t.onoff = s.onoff ∧ t.pwm = s.pwm := by
  cases h with
  | reset he | encoded he | rendered _ _ _ he | renderFailed _ _ _ _ _ he =>
    simp [he, Instr.mnemonic] at hi
  | answered | faulted | tileWritten | boundTo | loaded | emitted | emitFailed => exact ⟨rfl, rfl⟩

end

/-! ## After reset -/

theorem readOnOff_blank {i : Nat} (hi : i < 24) : readOnOff blankOnOff i = some 0x00#8 := by
  rw [readOnOff_inside _ hi]; simp [blankOnOff]

theorem readPwm_blank {i : Nat} (hi : i < 131) : readPwm blankPwm i = some 0x00#8 := by
  rw [readPwm_inside _ hi]; simp [blankPwm]

theorem resetTae_atResetValues (s : State) : s.resetTae.AtResetValues where
  status := rfl
  canvasW := rfl
  canvasH := rfl
  tileCount := by simp [readControl, tileCount]
  tileIx := rfl
  tile _ hx _ hy := readPixel_blank hx hy
  onoff _ hi := readOnOff_blank hi
  pwm _ hi := readPwm_blank hi

/-- The reset state has nothing left for a reset of the TAE to change. -/
theorem resetTae_reset : State.reset.resetTae = State.reset := rfl

theorem reset_atResetValues : State.reset.AtResetValues :=
  resetTae_reset ▸ resetTae_atResetValues State.reset

/-- A response is no part of the TAE's own state. -/
theorem State.AtResetValues.respond {s : State} (h : s.AtResetValues) (c : RespCode) (d : Word) :
    (s.respond c d).AtResetValues :=
  ⟨h.status, h.canvasW, h.canvasH, h.tileCount, h.tileIx, h.tile, h.onoff, h.pwm⟩

theorem exec_rst (s : State) : exec .rst s = .next (s.resetTae.respond .ok 0) := rfl

theorem State.AtResetValues.bound {s : State} (h : s.AtResetValues) : s.bound = false := by
  rw [State.bound, h.status, BitVec.getLsbD_zero]

/-- R34's values meet the TAE's clauses of the invariant: nothing is bound and every byte is zero. The clauses about
the host's canvas are left. -/
theorem State.AtResetValues.inv {s : State} (h : s.AtResetValues) (hform : s.canvas.wf)
    (hinside : ∀ c ∈ s.canvas, c.1 < s.canvasLen) (hracing : s.racing = []) : s.Inv where
  reservedZero := by rw [h.status, BitVec.zero_and]
  boundSize hbound := by simp [h.bound] at hbound
  unboundSize _ := ⟨h.canvasW, h.canvasH⟩
  oddBytes k hk b hb := by
    have hzero : readOnOff s.onoff (2 * k + 1) = some 0x00#8 := h.onoff _ (by omega)
    obtain rfl : 0x00#8 = b := Option.some.inj (hzero.symm.trans hb)
    exact BitVec.zero_and
  fillerSlots i _ hi := h.pwm i hi
  canvasForm := hform
  canvasInside := hinside
  notRacing := hracing

/-! ## Waiting -/

theorem step_of_no_input {s : State} (hinputs : s.inputs = []) : step s = .next s := by
  simp only [step, hinputs]

end Sys2Proof.Machine

namespace Sys2Proof.Proofs.Registers

/-- Settles O21, register by register: a command that the spec does not list leaves the register as it was. -/
theorem onlyTheListedCommandsWriteEachRegister : Obligations.OnlyTheListedCommandsWriteEachRegister := by
  intro i s t hexec
  have heffect : Effect i s t := effect_of_exec hexec
  refine ⟨fun hstatus => ?_, fun hsize => ?_, not_imp_comm.mp heffect.tileIx_eq,
    not_imp_comm.mp heffect.tile_eq, fun hbuffers => ?_⟩
  · exact or_iff_not_imp_left.mpr fun hi => (heffect.status_eq_or_faulted hi).resolve_left hstatus
  · exact not_imp_comm.mp heffect.canvasSize_eq (not_and_or.mpr hsize)
  · exact not_imp_comm.mp heffect.buffers_eq (not_and_or.mpr hbuffers)

/-- Settles O22: every command answers a next state in the same environment. -/
theorem noCommandWritesTheCanvas : Obligations.NoCommandWritesTheCanvas := by
  intro i s
  obtain ⟨t, ht, heffect⟩ := exec_effect i s
  obtain ⟨hcanvas, hlen, hracing, hinputs, hpre, htick⟩ := heffect.sameEnvironment
  exact ⟨t, ht, fun idx => by rw [hcanvas], hcanvas, hlen, hracing, hinputs, hpre, htick⟩

/-- Settles O7: with nothing on the host's list, `step` has nothing to take. -/
theorem stepWaitsForTheHost : Obligations.StepWaitsForTheHost :=
  fun _ => step_of_no_input

/-- Settles O8: both states are what `resetTae` leaves, the one after `RST` with a response. -/
theorem resetStateHoldsTheResetValues : Obligations.ResetStateHoldsTheResetValues :=
  ⟨reset_atResetValues, fun s => ⟨_, exec_rst s, (resetTae_atResetValues s).respond _ _⟩⟩

/-- Settles O24: the reset state holds R34's values, and its canvas memory lists no byte. -/
theorem invariantHoldsAfterReset : Obligations.InvariantHoldsAfterReset :=
  reset_atResetValues.inv State.reset_canvas_wf (fun _ hc => absurd hc List.not_mem_nil) rfl

end Sys2Proof.Proofs.Registers
end

