-- ==== Sys2Proof/Proofs/Memory.lean ====
section
/-!
What passes between the TAE and its environment: which byte a canvas read gives when the host writes meanwhile (R64),
and which commands issue transport calls (R59, R63). Settles the family `20_memory.md`.
-/

open Sys2Proof Sys2Proof.Machine

namespace Sys2Proof.Machine

/-! ## Canvas reads -/

section
variable {s : State} {idx : Nat}

/-- The new bytes of an index are those the host is writing there during the command. -/
theorem mem_racing_of_newBytes {bs : List Byte} {b : Byte}
    (hnew : (s.racing.filter (fun c => c.1 == idx)).map Prod.snd = bs) (hb : b ∈ bs) : (idx, b) ∈ s.racing := by
  obtain ⟨⟨a, v⟩, hc, rfl⟩ := List.mem_map.mp (hnew ▸ hb)
  obtain ⟨hmem, ha⟩ := List.mem_filter.mp hc
  exact beq_iff_eq.mp ha ▸ hmem

/-- An index taken modulo the length names an element of the list. -/
theorem getD_mod_length_mem (k : Nat) (a : Byte) (l : List Byte) :
    ((a :: l)[k % (a :: l).length]?).getD a ∈ a :: l := by
  have hk : k % (a :: l).length < (a :: l).length := Nat.mod_lt _ (Nat.succ_pos _)
  rw [List.getElem?_eq_getElem hk, Option.getD_some]
  exact List.getElem_mem hk

/-- Whatever the free choice is, it stays in the list of the old byte and the new ones. -/
theorem racedByte_eq_held_or_mem_racing (s : State) (idx : Nat) :
    racedByte s idx = s.canvas.read idx ∨ (idx, racedByte s idx) ∈ s.racing := by
  unfold racedByte
  split
  · exact .inl rfl
  · next b bs hnew =>
    have hseen := getD_mod_length_mem (Config.raceChoice s.tick idx) (s.canvas.read idx) (b :: bs)
    exact (List.mem_cons.mp hseen).imp_right (mem_racing_of_newBytes hnew)

theorem racedByte_of_no_race (h : ∀ c ∈ s.racing, c.1 ≠ idx) : racedByte s idx = s.canvas.read idx :=
  (racedByte_eq_held_or_mem_racing s idx).resolve_right fun hmem => h _ hmem rfl

theorem canvasRead_inside (h : idx < s.canvasLen) : canvasRead s idx = some (racedByte s idx) := if_pos h

theorem canvasRead_outside (h : s.canvasLen ≤ idx) : canvasRead s idx = none := if_neg (Nat.not_lt.mpr h)

end

/-! ## Transport calls -/

/-- What a command adds to the trace: its events use up as many answers, and there are none unless it is `EMIT` or
`RENDER`. `RENDER`'s loop is the one shape that needs an induction, which `Kept` holds. -/
theorem Effect.sends {i : Instr} {s t : State} (h : Effect i s t) :
    ∃ es, t.trace = s.trace ++ es ∧ t.answers = s.answers.drop es.length ∧
      (es ≠ [] → i.mnemonic = "EMIT" ∨ i.mnemonic = "RENDER") := by
  cases h with
  | emitted _ _ es hi | emitFailed _ _ es _ hi => exact ⟨es, rfl, rfl, fun _ => .inl (hi ▸ rfl)⟩
  | rendered _ _ u hi _ hu | renderFailed _ _ _ _ u hi _ hu =>
    obtain ⟨es, htrace, hanswers⟩ := (kept_of_renderTiles (congrArg Work.state hu)).sends
    exact ⟨es, htrace, hanswers, fun _ => .inr (hi ▸ rfl)⟩
  | answered | faulted | reset | tileWritten | encoded | boundTo | loaded =>
    exact ⟨[], by simp, by simp, fun hne => absurd rfl hne⟩

end Sys2Proof.Machine

namespace Sys2Proof.Proofs.Memory

/-- Settles O14: inside the memory a read gives `racedByte`, which is the byte held or one being written there. -/
theorem canvasReadGivesTheOldOrARacingByte : Obligations.CanvasReadGivesTheOldOrARacingByte := by
  intro s idx
  refine ⟨fun hin => ?_, fun hin hrace => ?_, canvasRead_outside⟩
  · exact ⟨_, canvasRead_inside hin, racedByte_eq_held_or_mem_racing s idx⟩
  · rw [canvasRead_inside hin, racedByte_of_no_race hrace]

/-- Settles O23: every command answers a next state, and its shape says what was sent. -/
theorem onlyEmitAndRenderUseTheTransport : Obligations.OnlyEmitAndRenderUseTheTransport := by
  intro i s
  obtain ⟨t, ht, heffect⟩ := exec_effect i s
  obtain ⟨es, hsends⟩ := heffect.sends
  exact ⟨t, es, ht, hsends⟩

end Sys2Proof.Proofs.Memory
end

