-- ==== Sys2Proof/Proofs/Encoding.lean ====
section
/-!
The decoder against R89's table, and the response to every word: masks as fields of a word, each row's opcode and
reserved bits, and the one response of each shape of a command's next state (R93). Settles the family
`30_encoding.md`.
-/

open Sys2Proof Sys2Proof.Machine

namespace Sys2Proof

/-! ## Masks and fields -/

/-- The word whose ones are bits `hi` to `lo`. -/
def fieldMask (hi lo : Nat) : Word := BitVec.ofNat 32 ((2 ^ (hi + 1 - lo) - 1) <<< lo)

/-- Masking keeps a field at its place. -/
theorem and_fieldMask_toNat (w : Word) {hi : Nat} (lo : Nat) (hhi : hi < 32) :
    (w &&& fieldMask hi lo).toNat = field w hi lo <<< lo := by
  refine Nat.eq_of_testBit_eq fun j => ?_
  simp only [fieldMask, field, BitVec.toNat_and, BitVec.toNat_ofNat, Nat.testBit_and, Nat.testBit_mod_two_pow,
    Nat.testBit_shiftLeft, Nat.testBit_two_pow_sub_one, Nat.testBit_div_two_pow]
  by_cases hj : lo ≤ j
  · rw [Nat.sub_add_cancel hj]
    by_cases hin : j < hi + 1
    · simp [hj, show j < 32 by omega, show j - lo < hi + 1 - lo by omega]
    · simp [show ¬ j - lo < hi + 1 - lo by omega]
  · simp [hj]

/-- Two words agree under the mask of a field exactly when the field has the same value in both. -/
theorem and_fieldMask_eq_iff {v w : Word} {hi lo : Nat} (hhi : hi < 32) :
    w &&& fieldMask hi lo = v &&& fieldMask hi lo ↔ field w hi lo = field v hi lo := by
  rw [← BitVec.toNat_inj, and_fieldMask_toNat w lo hhi, and_fieldMask_toNat v lo hhi, Nat.shiftLeft_eq,
    Nat.shiftLeft_eq]
  exact Nat.mul_left_inj (Nat.two_pow_pos lo).ne'

theorem field_beq_zero (w : Word) (lo : Nat) {hi : Nat} (hhi : hi < 32) :
    (field w hi lo == 0) = (w &&& fieldMask hi lo == 0#32) := by
  have hzero : field 0#32 hi lo = 0 := by simp [field]
  have heq := and_fieldMask_eq_iff (v := 0#32) (w := w) (lo := lo) hhi
  rw [BitVec.zero_and, hzero] at heq
  exact Bool.eq_iff_iff.mpr (by rw [beq_iff_eq, beq_iff_eq, heq])

theorem and_or_beq_zero (w a b : Word) :
    (w &&& (a ||| b) == 0#32) = (w &&& a == 0#32 && w &&& b == 0#32) := by
  rw [BitVec.and_or_distrib_left, Bool.eq_iff_iff, Bool.and_eq_true, beq_iff_eq, beq_iff_eq, beq_iff_eq,
    BitVec.or_eq_zero_iff]

/-- A mask in two disjoint parts, of which a match word uses the first only. -/
theorem and_or_eq_iff {v w a b : Word} (hdisjoint : a &&& b = 0#32) (hv : v &&& a = v) :
    w &&& (a ||| b) = v ↔ w &&& a = v ∧ w &&& b = 0#32 := by
  have ha : (a ||| b) &&& a = a := by
    rw [BitVec.and_or_distrib_right, BitVec.and_self, BitVec.and_comm b, hdisjoint, BitVec.or_zero]
  have hb : (a ||| b) &&& b = b := by
    rw [BitVec.and_or_distrib_right, BitVec.and_self, hdisjoint, BitVec.zero_or]
  refine ⟨fun h => ⟨?_, ?_⟩, fun ⟨hwa, hwb⟩ => by rw [BitVec.and_or_distrib_left, hwa, hwb, BitVec.or_zero]⟩
  · calc w &&& a = w &&& (a ||| b) &&& a := by rw [BitVec.and_assoc, ha]
      _ = v := by rw [h, hv]
  · calc w &&& b = w &&& (a ||| b) &&& b := by rw [BitVec.and_assoc, hb]
      _ = v &&& (a &&& b) := by rw [h, ← BitVec.and_assoc, hv]
      _ = 0#32 := by rw [hdisjoint, BitVec.and_zero]

/-! ## The rows of the opcode table -/

/-- The opcode of a row, from its match word (R80). -/
def OpcodeRow.opcode (r : OpcodeRow) : Nat := field r.matchBits 31 24

/-- The bits 23:0 that the row's mask compares: those its format marks `0` (R81 to R87). -/
def OpcodeRow.reserved (r : OpcodeRow) : Word := r.mask &&& fieldMask 23 0

/-- Every mask compares the opcode, and no match word has a one outside the opcode. -/
theorem opcodeTable_masks : ∀ r ∈ opcodeTable,
    r.mask = fieldMask 31 24 ||| r.reserved ∧ r.matchBits &&& fieldMask 31 24 = r.matchBits := by decide

/-- No two rows have the same mnemonic (R89). -/
theorem opcodeTable_mnemonic_injective : ∀ r ∈ opcodeTable, ∀ r' ∈ opcodeTable,
    r.mnemonic = r'.mnemonic → r = r' := by decide

/-- A word selects a row when it has the row's opcode and none of its reserved bits. -/
theorem and_mask_eq_matchBits_iff {w : Word} {r : OpcodeRow} (hr : r ∈ opcodeTable) :
    w &&& r.mask = r.matchBits ↔ field w 31 24 = r.opcode ∧ w &&& r.reserved = 0#32 := by
  obtain ⟨hmask, hmatch⟩ := opcodeTable_masks r hr
  have hdisjoint : fieldMask 31 24 &&& r.reserved = 0#32 := by
    rw [OpcodeRow.reserved, BitVec.and_comm r.mask, ← BitVec.and_assoc,
      show fieldMask 31 24 &&& fieldMask 23 0 = 0#32 by decide, BitVec.zero_and]
  rw [hmask, and_or_eq_iff hdisjoint hmatch, OpcodeRow.opcode, ← and_fieldMask_eq_iff (by decide), hmatch]

/-! ## The reserved bits of each format -/

section
variable (w : Word)

theorem zeroZ_eq : zeroZ w = (w &&& 0x00FFFFFF#32 == 0#32) := field_beq_zero w 0 (by decide)

theorem zeroXY_eq : zeroXY w = (w &&& 0x00E0F8FF#32 == 0#32) := by
  rw [show 0x00E0F8FF#32 = fieldMask 23 21 ||| fieldMask 15 11 ||| fieldMask 7 0 by decide, and_or_beq_zero,
    and_or_beq_zero, ← field_beq_zero w 21 (by decide), ← field_beq_zero w 11 (by decide),
    ← field_beq_zero w 0 (by decide), zeroXY]

theorem zeroP_eq : zeroP w = (w &&& 0x00E0F800#32 == 0#32) := by
  rw [show 0x00E0F800#32 = fieldMask 23 21 ||| fieldMask 15 11 by decide, and_or_beq_zero,
    ← field_beq_zero w 21 (by decide), ← field_beq_zero w 11 (by decide), zeroP]

/-- Format C marks no bit `0` (R84). -/
theorem zeroC_eq : true = (w &&& 0#32 == 0#32) := by rw [BitVec.and_zero, BEq.rfl]

theorem zeroT_eq : zeroT w = (w &&& 0x00FF0000#32 == 0#32) := field_beq_zero w 16 (by decide)

theorem zeroB_eq : zeroB w = (w &&& 0x00FE0000#32 == 0#32) := field_beq_zero w 17 (by decide)

theorem zeroI_eq : zeroI w = (w &&& 0x00FFFF00#32 == 0#32) := field_beq_zero w 8 (by decide)

end

/-! ## The decoder row by row -/

theorem ifReservedZero_eq_command {zero : Bool} {i j : Instr} :
    ifReservedZero zero i = .command j ↔ zero = true ∧ i = j := by
  cases zero <;> simp [ifReservedZero]

/-- A word with a row's opcode decodes to a command of that row, unless one of the row's reserved bits is 1. Only
here are the fifteen arms of the decoder read, each with its format. -/
theorem decode_of_opcode {w : Word} {r : OpcodeRow} (hr : r ∈ opcodeTable) (hop : field w 31 24 = r.opcode) :
    ∃ i, decode w = ifReservedZero (w &&& r.reserved == 0#32) i ∧ i.mnemonic = r.mnemonic := by
  simp only [opcodeTable, List.mem_cons, List.not_mem_nil, or_false] at hr
  unfold decode
  rw [hop]
  rcases hr with rfl | rfl | rfl | rfl | rfl | rfl | rfl | rfl | rfl | rfl | rfl | rfl | rfl | rfl | rfl
  · exact ⟨.nop, congrArg (ifReservedZero · _) (zeroZ_eq w), rfl⟩
  · exact ⟨.rst, congrArg (ifReservedZero · _) (zeroZ_eq w), rfl⟩
  · exact ⟨.map _ _, congrArg (ifReservedZero · _) (zeroXY_eq w), rfl⟩
  · exact ⟨.tclr, congrArg (ifReservedZero · _) (zeroZ_eq w), rfl⟩
  · exact ⟨.tpix _ _ _, congrArg (ifReservedZero · _) (zeroP_eq w), rfl⟩
  · exact ⟨.encode, congrArg (ifReservedZero · _) (zeroZ_eq w), rfl⟩
  · exact ⟨.canvas _ _, congrArg (ifReservedZero · _) (zeroC_eq w), rfl⟩
  · exact ⟨.split, congrArg (ifReservedZero · _) (zeroZ_eq w), rfl⟩
  · exact ⟨.loadt _, congrArg (ifReservedZero · _) (zeroT_eq w), rfl⟩
  · exact ⟨.emit _ _, congrArg (ifReservedZero · _) (zeroB_eq w), rfl⟩
  · exact ⟨.render _ _, congrArg (ifReservedZero · _) (zeroB_eq w), rfl⟩
  · exact ⟨.rdcr _, congrArg (ifReservedZero · _) (zeroI_eq w), rfl⟩
  · exact ⟨.rdtp _ _, congrArg (ifReservedZero · _) (zeroXY_eq w), rfl⟩
  · exact ⟨.rdoo _, congrArg (ifReservedZero · _) (zeroI_eq w), rfl⟩
  · exact ⟨.rdpw _, congrArg (ifReservedZero · _) (zeroI_eq w), rfl⟩

/-- An opcode of no row is unassigned (R90). -/
theorem decode_of_unassigned {w : Word} (h : field w 31 24 ∉ opcodeTable.map OpcodeRow.opcode) :
    decode w = .illegal .unassignedOpcode := by
  unfold decode
  split
  case h_16 => rfl
  all_goals next hop => exact absurd (by rw [hop]; decide) h

/-- A word that decodes to a command has the opcode of the command's row and none of its reserved bits. -/
theorem row_of_decode {w : Word} {i : Instr} (h : decode w = .command i) :
    ∃ r ∈ opcodeTable, i.mnemonic = r.mnemonic ∧ field w 31 24 = r.opcode ∧ w &&& r.reserved = 0#32 := by
  by_cases hassigned : field w 31 24 ∈ opcodeTable.map OpcodeRow.opcode
  · obtain ⟨r, hr, hop⟩ := List.mem_map.mp hassigned
    obtain ⟨j, hdecode, hj⟩ := decode_of_opcode hr hop.symm
    obtain ⟨hzero, rfl⟩ := ifReservedZero_eq_command.mp (hdecode.symm.trans h)
    exact ⟨r, hr, hj, hop.symm, beq_iff_eq.mp hzero⟩
  · rw [decode_of_unassigned hassigned] at h
    cases h

end Sys2Proof

namespace Sys2Proof.Machine

/-! ## Responses -/

/-- Every shape of a command's next state has one response more; `RENDER`'s loop itself gives none. -/
theorem Effect.responses_eq {i : Instr} {s t : State} (h : Effect i s t) :
    ∃ r, t.responses = s.responses ++ [r] := by
  cases h with
  | rendered _ _ u _ _ hu =>
    have hkept : Kept s u := kept_of_renderTiles (congrArg Work.state hu)
    exact ⟨_, by rw [respond_responses, hkept.responses]⟩
  | renderFailed _ _ _ _ u _ _ hu =>
    have hkept : Kept s u := kept_of_renderTiles (congrArg Work.state hu)
    exact ⟨_, by rw [raise_responses, hkept.responses]⟩
  | encoded => exact ⟨_, by rw [respond_responses, encodeBuffers_responses]⟩
  | answered | faulted | reset | tileWritten | boundTo | loaded | emitted | emitFailed => exact ⟨_, rfl⟩

theorem exec_one_response (i : Instr) (s : State) :
    ∃ t r, exec i s = .next t ∧ t.responses = s.responses ++ [r] := by
  obtain ⟨t, ht, heffect⟩ := exec_effect i s
  obtain ⟨r, hr⟩ := heffect.responses_eq
  exact ⟨t, r, ht, hr⟩

theorem runWord_one_response (w : Word) (s : State) :
    ∃ t r, runWord w s = .next t ∧ t.responses = s.responses ++ [r] := by
  cases hdecode : decode w with
  | command i => rw [runWord_of_command hdecode]; exact exec_one_response i s
  | illegal e => exact ⟨_, _, runWord_of_illegal hdecode s, raise_responses ..⟩

theorem RespCode.num_le (c : RespCode) : c.num ≤ 4 := by
  cases c with
  | ok => decide
  | raised k => exact k.code_range.2

/-- The code stands above the 32 bits of data (R93). -/
theorem Response.bits_toNat (r : Response) : r.bits.toNat = r.code.num * 2 ^ 32 + r.data.toNat := by
  have hnum := r.code.num_le
  rw [Response.bits, Format.toNat_append_eq, BitVec.toNat_ofNat, Nat.mod_eq_of_lt (by omega)]

end Sys2Proof.Machine

namespace Sys2Proof.Proofs.Encoding

/-- Settles O3: by `and_mask_eq_matchBits_iff` both sides speak of the opcode and the reserved bits. A decoded word
meets them for the row of its command, and the mnemonic says which row that is. -/
theorem wordSelectsARowByMatchAndMask : Obligations.WordSelectsARowByMatchAndMask := by
  intro w r hr
  rw [and_mask_eq_matchBits_iff hr]
  constructor
  · rintro ⟨hop, hzero⟩
    obtain ⟨i, hdecode, hi⟩ := decode_of_opcode hr hop
    exact ⟨i, hdecode.trans (ifReservedZero_eq_command.mpr ⟨beq_iff_eq.mpr hzero, rfl⟩), hi⟩
  · rintro ⟨i, hdecode, hi⟩
    obtain ⟨r', hr', hi', hrow⟩ := row_of_decode hdecode
    obtain rfl : r' = r := opcodeTable_mnemonic_injective r' hr' r hr (hi'.symm.trans hi)
    exact hrow

/-- Settles O15: each shape of a command's next state adds one response, and so does the fault of an illegal word. -/
theorem everyCommandGivesExactlyOneResponse : Obligations.EveryCommandGivesExactlyOneResponse :=
  ⟨exec_one_response, runWord_one_response, by decide, fun r => ⟨r.code.num_le, r.bits_toNat⟩⟩

end Sys2Proof.Proofs.Encoding
end

