-- ==== Sys2Proof/Proofs/Mapper.lean ====
section
/-!
The `MAP` command: the layout of its data (R94) and its two cases, inside and outside the tile (R119). Settles the
family `40_mapper.md`.
-/

open Sys2Proof Sys2Proof.Machine Sys2Proof.Format

namespace Sys2Proof.Machine

/-- R88 for `MAP`: the operands stand in the word of format XY. -/
theorem decode_wordXY_map {x y : Nat} (hx : x < 32) (hy : y < 8) :
    decode (wordXY 0x10#8 x y) = .command (.map x y) := by
  rw [← encode_map hx hy]
  exact Laws.RoundTrip.map x y (by simp [Instr.wellFormed, hx, hy])

theorem ledIndex_eq (x y : Nat) : ledIndex x y = 5 * x + y := by
  rw [ledIndex, Nat.mul_comm]

theorem registerIndex_eq (led : Nat) : registerIndex led = 2 * (led / 10) + led % 10 / 8 := by
  rw [registerIndex, registerBit, Nat.mul_comm]

section
variable {x y : Nat}

/-- The fields of a `MAP` response at their places (R94): for a pixel of the tile none is cut short. -/
theorem mapData_toNat (hx : x < 24) (hy : y < 5) :
    (mapData x y).toNat = ledIndex x y + 2 ^ 8 * registerIndex (ledIndex x y) +
      2 ^ 16 * registerBit (ledIndex x y) + 2 ^ 20 * bitInByte (ledIndex x y) := by
  have hled : ledIndex x y < 120 := ledIndex_lt hx hy
  have hindex : registerIndex (ledIndex x y) < 24 := registerIndex_lt hled
  have hbit : registerBit (ledIndex x y) < 10 := Nat.mod_lt _ (by decide)
  have hbyte : bitInByte (ledIndex x y) < 8 := bitInByte_lt _
  simp only [mapData, BitVec.toNat_setWidth, toNat_append_eq, BitVec.toNat_ofNat]
  omega

theorem mapData_eq_ofNat (h : x < 24 ∧ y < 5) :
    mapData x y = BitVec.ofNat 32 (ledIndex x y + 2 ^ 8 * registerIndex (ledIndex x y) +
      2 ^ 16 * registerBit (ledIndex x y) + 2 ^ 20 * bitInByte (ledIndex x y)) := by
  rw [← mapData_toNat h.1 h.2, BitVec.ofNat_toNat, BitVec.setWidth_eq]

theorem exec_map_inside (h : x < 24 ∧ y < 5) (s : State) :
    exec (.map x y) s = .next (s.respond .ok (mapData x y)) := by
  simp only [exec, execMap, (inTile_iff x y).mpr h]

theorem exec_map_outside (h : ¬ (x < 24 ∧ y < 5)) (s : State) :
    exec (.map x y) s = .next (s.raise .boundsViolation (encode (.map x y))) := by
  simp only [exec, execMap, Bool.eq_false_iff.mpr (mt (inTile_iff x y).mp h), commandWord]

end

end Sys2Proof.Machine

namespace Sys2Proof.Proofs.Mapper

/-- Settles O26: inside the tile `mapData_eq_ofNat` gives the four fields; outside it the fault is raised, whose sticky
bit is bit 2 of `STATUS`. -/
theorem mapAnswersThePhysicalAddress : Obligations.MapAnswersThePhysicalAddress := by
  intro x y s
  refine ⟨decode_wordXY_map, fun hin => ?_, exec_map_outside (s := s)⟩
  rw [exec_map_inside hin, mapData_eq_ofNat hin, registerIndex_eq, ledIndex_eq]
  rfl

end Sys2Proof.Proofs.Mapper
end

