-- ==== Sys2Proof/Proofs/Packer.lean ====
section
/-!
The scratch tile's writes `TCLR` and `TPIX` (R130, R131), and what the packer's brightness byte reads without
brightness (R138). Settles the family `41_packer.md`.
-/

open Sys2Proof Sys2Proof.Machine Sys2Proof.Format

namespace Sys2Proof.Machine

/-! ## Writes to the scratch tile -/

/-- R88 for `TPIX`: the operands stand in the word of format P. -/
theorem decode_wordP_tpix {x y v : Nat} (hx : x < 32) (hy : y < 8) (hv : v < 256) :
    decode (wordP 0x21#8 x y v) = .command (.tpix x y v) := by
  rw [← encode_tpix hx hy hv]
  exact Laws.RoundTrip.tpix x y v (by simp [Instr.wellFormed, hx, hy, hv])

theorem exec_tclr (s : State) : exec .tclr s = .next ({ s with tile := blankTile }.respond .ok 0) := rfl

theorem exec_tpix_of_written {x y v : Nat} {s : State} {u : Tile}
    (h : writePixel s.tile x y (BitVec.ofNat 8 v) = some u) :
    exec (.tpix x y v) s = .next ({ s with tile := u }.respond .ok 0) := by
  simp only [exec, execTpix, h]

theorem exec_tpix_outside {x y : Nat} (v : Nat) (h : ¬ (x < 24 ∧ y < 5)) (s : State) :
    exec (.tpix x y v) s = .next (s.raise .boundsViolation (encode (.tpix x y v))) := by
  simp only [exec, execTpix, writePixel_outside s.tile (BitVec.ofNat 8 v) h, commandWord]

/-! ## Emission without brightness -/

section
variable (s : State) (t : BitVec 16) (pwm : Pwm)

/-- R138: the brightness table without brightness is 0xFF throughout, and no other table reads `PWM`. -/
theorem tableEntry_ignoresPwm (i : Nat) (kind : TableKind) :
    tableEntry { s with pwm := pwm } false i kind = tableEntry s false i kind := by
  cases kind <;> rfl

theorem tileCalls_ignoresPwm : tileCalls { s with pwm := pwm } t false = tileCalls s t false := by
  simp only [tileCalls, tableCalls, preWrites, tableEntry_ignoresPwm]

/-- The same calls meet the same answers, so the tile ends the same way, failing call included. -/
theorem emitTile_finish_ignoresPwm (d : Word) :
    (emitTile t false { s with pwm := pwm }).finish d = { (emitTile t false s).finish d with pwm := pwm } := by
  have hanswer : answerAt { s with pwm := pwm } = answerAt s := rfl
  simp only [emitTile, tileCalls_ignoresPwm, hanswer]
  obtain ⟨es, _ | kind⟩ := issueCalls (answerAt s) (tileCalls s t false) 0
  · rfl
  · rfl

end

theorem exec_emit (t : Nat) (b : Bool) (s : State) : exec (.emit t b) s =
    .next ((emitTile (BitVec.ofNat 16 t) b { s with tileIx := BitVec.ofNat 16 t }).finish 0) := rfl

end Sys2Proof.Machine

namespace Sys2Proof.Proofs.Packer

/-- Settles O30: inside the tile the pixel write succeeds, and `writePixel_inside` says what it leaves; outside it the
fault is raised, whose sticky bit is bit 2 of `STATUS`. -/
theorem tpixWritesOnePixel : Obligations.TpixWritesOnePixel := by
  intro x y v s
  refine ⟨decode_wordP_tpix, fun ⟨hx, hy⟩ => ?_, fun hout => exec_tpix_outside v hout s⟩
  obtain ⟨u, hwritten, hpixels⟩ := writePixel_inside s.tile (BitVec.ofNat 8 v) hx hy
  exact ⟨_, exec_tpix_of_written hwritten, hpixels, rfl⟩

/-- Settles O43: the two runs send the same calls, and `EMIT` is no command that writes `PWM`. -/
theorem emitWithoutBrightnessIgnoresPwm : Obligations.EmitWithoutBrightnessIgnoresPwm := by
  intro t s pwm
  have hkept := (effect_of_exec (exec_emit t false s)).buffers_eq (by simp [Instr.mnemonic])
  exact ⟨_, exec_emit t false s,
    congrArg Host.Outcome.next (emitTile_finish_ignoresPwm { s with tileIx := BitVec.ofNat 16 t } _ pwm 0), hkept.2⟩

/-- Settles O29: the tile is the blank one, and the rest of the state only gets the response. -/
theorem tclrClearsTheTile : Obligations.TclrClearsTheTile := by
  refine ⟨?_, fun s => ⟨_, exec_tclr s, fun x hx y hy => readPixel_blank hx hy, rfl⟩⟩
  obtain ⟨-, -, htclr, -⟩ := encode_formatZ
  exact htclr ▸ Laws.RoundTrip.tclr rfl

end Sys2Proof.Proofs.Packer
end

