-- ==== Sys2Proof/Proofs/Partitioner.lean ====
section
/-!
The partitioner's commands (R151 to R157) and the invariant of the machine: the invariant in parts, each kept by what a
command can do, and the host's actions around it. Settles the family `42_partitioner.md`.
-/

open Sys2Proof Sys2Proof.Machine Sys2Proof.Format

namespace Sys2Proof

/-! ## Operands of a decoded word -/

theorem field_lt {w : Word} {hi lo n : Nat} (hn : 2 ^ (hi + 1 - lo) ≤ n) : field w hi lo < n :=
  (Nat.mod_lt _ (Nat.two_pow_pos _)).trans_le hn

/-- R88: every operand of a decoded word is a field of it, so the command is well formed. -/
theorem wellFormed_of_decode {w : Word} {i : Instr} (h : decode w = .command i) : i.wellFormed = true := by
  unfold decode at h
  split at h
  case h_7 =>
    obtain rfl := Decoded.command.inj h
    simp [Instr.wellFormed, field_lt]
  case h_16 => cases h
  all_goals
    obtain ⟨-, rfl⟩ := ifReservedZero_eq_command.mp h
    simp [Instr.wellFormed, field_lt]

end Sys2Proof

namespace Sys2Proof.Machine

/-! ## The binding of a canvas -/

/-- The invariant's clauses about `STATUS` and the canvas dimensions (R23, R153). -/
structure BindingInv (status canvasW : BitVec 16) (canvasH : BitVec 8) : Prop where
  reservedZero : status &&& 0xFFE0#16 = 0#16
  boundSize : status.getLsbD 0 = true → canvasW ≠ 0#16 ∧ canvasH ≠ 0#8
  unboundSize : status.getLsbD 0 = false → canvasW = 0#16 ∧ canvasH = 0#8

theorem bindingInv_reset : BindingInv 0#16 0#16 0#8 := ⟨rfl, nofun, fun _ => ⟨rfl, rfl⟩⟩

/-- A sticky bit is none of the reserved ones, nor is it `BOUND`. -/
theorem BindingInv.setSticky {status canvasW : BitVec 16} {canvasH : BitVec 8}
    (h : BindingInv status canvasW canvasH) (k : FaultKind) :
    BindingInv (setStatusBit status k.code) canvasW canvasH := by
  obtain ⟨hlow, hhigh⟩ := k.code_range
  have hbound : (setStatusBit status k.code).getLsbD 0 = status.getLsbD 0 := by
    rw [setStatusBit_getLsbD _ _ _ (by omega), decide_eq_false (by omega), Bool.or_false]
  exact ⟨setStatusBit_reserved (by omega) h.reservedZero, hbound ▸ h.boundSize, hbound ▸ h.unboundSize⟩

theorem ofNat_ne_zero_of_lt {n v : Nat} (h0 : v ≠ 0) (hv : v < 2 ^ n) : BitVec.ofNat n v ≠ 0#n := by
  intro h
  have htoNat := congrArg BitVec.toNat h
  rw [BitVec.toNat_ofNat, Nat.mod_eq_of_lt hv, BitVec.toNat_zero] at htoNat
  exact h0 htoNat

/-- `CANVAS` binds nonzero dimensions: operands that fit their fields keep their values (R84, R151). -/
theorem BindingInv.bind {status canvasW : BitVec 16} {canvasH : BitVec 8} (hinv : BindingInv status canvasW canvasH)
    {w h : Nat} (hwf : (Instr.canvas w h).wellFormed = true) (hw : w ≠ 0) (hh : h ≠ 0) :
    BindingInv (setStatusBit status 0) (BitVec.ofNat 16 w) (BitVec.ofNat 8 h) := by
  simp only [Instr.wellFormed, Bool.and_eq_true, decide_eq_true_eq] at hwf
  have hbound : (setStatusBit status 0).getLsbD 0 = true := by
    rw [setStatusBit_getLsbD _ _ _ (by decide), decide_eq_true rfl, Bool.or_true]
  refine ⟨setStatusBit_reserved (by decide) hinv.reservedZero, fun _ => ⟨?_, ?_⟩, fun hunbound => ?_⟩
  · exact ofNat_ne_zero_of_lt hw hwf.1
  · exact ofNat_ne_zero_of_lt hh hwf.2
  · exact absurd (hbound.symm.trans hunbound) (by decide)

theorem Kept.bindingInv {s t : State} (h : Kept s t) (hs : BindingInv s.status s.canvasW s.canvasH) :
    BindingInv t.status t.canvasW t.canvasH := by
  rwa [h.status, h.canvasW, h.canvasH]

/-- Only `CANVAS` and `RST` bind or unbind; every other command at most sets a sticky bit. -/
theorem Effect.bindingInv {i : Instr} {s t : State} (h : Effect i s t) (hi : i.wellFormed = true)
    (hs : BindingInv s.status s.canvasW s.canvasH) : BindingInv t.status t.canvasW t.canvasH := by
  cases h with
  | reset => exact bindingInv_reset
  | boundTo w h he hw hh => exact hs.bind (he ▸ hi) hw hh
  | faulted | emitFailed => exact hs.setSticky _
  | renderFailed _ _ k _ _ _ _ hu =>
    exact ((kept_of_renderTiles (congrArg Work.state hu)).bindingInv hs).setSticky k
  | rendered _ _ _ _ _ hu => exact (kept_of_renderTiles (congrArg Work.state hu)).bindingInv hs
  | encoded => simpa using hs
  | answered | tileWritten | loaded | emitted => exact hs

/-! ## The packed buffers -/

/-- The invariant's clauses about the buffers: the bits and slots that no pixel maps to are zero (R134, R136). -/
structure PackedInv (onoff : OnOff) (pwm : Pwm) : Prop where
  oddBytes : ∀ k < 12, ∀ b, readOnOff onoff (2 * k + 1) = some b → b &&& 0xFC#8 = 0#8
  fillerSlots : ∀ i, 120 ≤ i → i < 131 → readPwm pwm i = some 0x00#8

theorem and_0xFC_eq_zero_iff (b : Byte) : b &&& 0xFC#8 = 0#8 ↔ ∀ j < 8, 2 ≤ j → b.getLsbD j = false := by
  have hmask : ∀ j < 8, (0xFC#8).getLsbD j = decide (2 ≤ j) := by decide
  simp only [BitVec.eq_of_getLsbD_eq_iff, BitVec.getLsbD_and, BitVec.getLsbD_zero]
  refine forall₂_congr fun j hj => ?_
  rw [hmask j hj, Bool.and_eq_false_iff, decide_eq_false_iff_not, or_comm, imp_iff_not_or]

/-- R113: an odd byte holds LEDs 8 and 9 of its group, so their bits are 0 and 1. -/
theorem bitInByte_lt_two_of_odd {led k : Nat} (h : registerIndex led = 2 * k + 1) : bitInByte led < 2 := by
  simp only [registerIndex, bitInByte, registerBit] at *
  omega

theorem packedInv_blank : PackedInv blankOnOff blankPwm where
  oddBytes k hk b hb := by
    obtain rfl : 0x00#8 = b := Option.some.inj ((readOnOff_blank (by omega)).symm.trans hb)
    exact BitVec.zero_and
  fillerSlots _ _ hi := readPwm_blank hi

/-- A pixel's update writes a mapped bit and a slot below 120, so the unmapped ones stay zero. -/
theorem PackedInv.packPixel {out : OnOff × Pwm} (h : PackedInv out.1 out.2) (t : Tile) (p : Fin 24 × Fin 5) :
    PackedInv (packPixel t out p).1 (packPixel t out p).2 := by
  have hled : ledIndex p.1 p.2 < 120 := ledIndex_lt p.1.2 p.2.2
  constructor
  case oddBytes =>
    intro k hk b hb
    have hr : 2 * k + 1 < 24 := by omega
    have hold := (and_0xFC_eq_zero_iff _).mp (h.oddBytes k hk _ (readOnOff_inside out.1 hr))
    obtain rfl := Option.some.inj ((readOnOff_inside _ hr).symm.trans hb)
    refine (and_0xFC_eq_zero_iff _).mpr fun j hj hj2 => ?_
    have hother : ¬ (2 * k + 1 = registerIndex (ledIndex p.1 p.2) ∧ j = bitInByte (ledIndex p.1 p.2)) := by
      rintro ⟨hreg, rfl⟩
      exact absurd (bitInByte_lt_two_of_odd hreg.symm) (by omega)
    exact (updateOnOff_getLsbD out.1 _ hled hr hj).trans ((if_neg hother).trans (hold j hj hj2))
  case fillerSlots =>
    intro i hlow hi
    have hother : ¬ i = pwmSlot (ledIndex p.1 p.2) := by rw [pwmSlot]; omega
    have hold := h.fillerSlots i hlow hi
    rw [readPwm_inside _ hi] at hold ⊢
    exact (congrArg some ((setPwm_getElem out.2 _ hi).trans (if_neg hother))).trans hold

theorem packedInv_encodeTile (t : Tile) : PackedInv (encodeTile t).1 (encodeTile t).2 :=
  List.foldlRecOn (motive := fun out => PackedInv out.1 out.2) tilePixels (packPixel t) packedInv_blank
    fun _ h p _ => h.packPixel t p

theorem packedInv_encodeBuffers (s : State) : PackedInv s.encodeBuffers.onoff s.encodeBuffers.pwm := by
  rw [encodeBuffers_onoff, encodeBuffers_pwm]
  exact packedInv_encodeTile s.tile

/-- A tile's turn in `RENDER` leaves the buffers alone or encodes a tile into them. -/
theorem renderTile_packedInv (cmd : Word) (b : Bool) (t : Nat) (s : State) (h : PackedInv s.onoff s.pwm) :
    PackedInv (renderTile cmd b t s).state.onoff (renderTile cmd b t s).state.pwm := by
  rcases renderTile_state cmd b t s with hstate | ⟨u, es, -, hstate⟩ <;> rw [hstate]
  · exact h
  · exact packedInv_encodeBuffers _

theorem packedInv_of_renderTiles {cmd : Word} {b : Bool} {ts : List Nat} {s u : State}
    (hu : (renderTiles cmd b ts s).state = u) (h : PackedInv s.onoff s.pwm) : PackedInv u.onoff u.pwm :=
  hu ▸ renderTiles_keeps (P := fun q => PackedInv q.onoff q.pwm) (renderTile_packedInv cmd b) ts s h

/-- A command clears the buffers, encodes a tile into them, or leaves them. -/
theorem Effect.packedInv {i : Instr} {s t : State} (h : Effect i s t) (hs : PackedInv s.onoff s.pwm) :
    PackedInv t.onoff t.pwm := by
  cases h with
  | reset => exact packedInv_blank
  | encoded => exact packedInv_encodeBuffers s
  | rendered _ _ u _ _ hu | renderFailed _ _ _ _ u _ _ hu =>
    have hpacked : PackedInv u.onoff u.pwm := packedInv_of_renderTiles (congrArg Work.state hu) hs
    exact hpacked
  | answered | faulted | tileWritten | boundTo | loaded | emitted | emitFailed => exact hs

/-! ## The TAE's part of the invariant, and a command word -/

/-- The invariant's clauses about the TAE's own state, which a command keeps whatever the host writes meanwhile. -/
structure TaeInv (s : State) : Prop where
  binding : BindingInv s.status s.canvasW s.canvasH
  packed : PackedInv s.onoff s.pwm

theorem State.Inv.taeInv {s : State} (h : s.Inv) : TaeInv s :=
  ⟨⟨h.reservedZero, h.boundSize, h.unboundSize⟩, ⟨h.oddBytes, h.fillerSlots⟩⟩

/-- A word that is no command sets one sticky bit; a decoded word is a well-formed command. -/
theorem runWord_taeInv {w : Word} {s t : State} (h : runWord w s = .next t) (hs : TaeInv s) : TaeInv t := by
  cases hdecode : decode w with
  | command i =>
    have heffect : Effect i s t := effect_of_exec ((runWord_of_command hdecode s).symm.trans h)
    exact ⟨heffect.bindingInv (wellFormed_of_decode hdecode) hs.binding, heffect.packedInv hs.packed⟩
  | illegal e =>
    obtain rfl := Host.Outcome.next.inj ((runWord_of_illegal hdecode s).symm.trans h)
    exact ⟨hs.binding.setSticky _, hs.packed⟩

/-! ## The host's part of the invariant, and its actions -/

/-- The invariant's clauses about the canvas memory (R50). -/
structure CanvasInv (canvas : Memory) (len : Nat) : Prop where
  form : canvas.wf
  inside : ∀ c ∈ canvas, c.1 < len

theorem State.Inv.canvasInv {s : State} (h : s.Inv) : CanvasInv s.canvas s.canvasLen :=
  ⟨h.canvasForm, h.canvasInside⟩

theorem canvasInv_nil (len : Nat) : CanvasInv [] len := ⟨by decide, fun _ hc => absurd hc List.not_mem_nil⟩

/-- The parts give the invariant back. -/
theorem TaeInv.inv {s : State} (h : TaeInv s) (hcanvas : CanvasInv s.canvas s.canvasLen) (hracing : s.racing = []) :
    s.Inv :=
  ⟨h.binding.reservedZero, h.binding.boundSize, h.binding.unboundSize, h.packed.oddBytes, h.packed.fillerSlots,
    hcanvas.form, hcanvas.inside, hracing⟩

/-- Committing writes that U2 allows gives the invariant, between commands and after one. -/
theorem TaeInv.settle {s : State} (h : TaeInv s) (hcanvas : CanvasInv s.canvas s.canvasLen)
    (hwritable : s.writable s.racing = true) : s.settle.Inv :=
  TaeInv.inv ⟨h.binding, h.packed⟩
    ⟨Memory.writeAll_wf hcanvas.form _, Memory.writeAll_inside hcanvas.inside ((writable_iff s _).mp hwritable)⟩ rfl

theorem taeInv_resetTae (s : State) : TaeInv s.resetTae := ⟨bindingInv_reset, packedInv_blank⟩

theorem settleOutcome_inv {s t : State} {w : Word} (h : settleOutcome (runWord w s) = .next t) (hs : TaeInv s)
    (hcanvas : CanvasInv s.canvas s.canvasLen) (hwritable : s.writable s.racing = true) : t.Inv := by
  obtain ⟨u, hu, henv⟩ := runWord_next w s
  rw [hu] at h
  obtain rfl := Host.Outcome.next.inj h
  refine (runWord_taeInv hu hs).settle ?_ ?_
  · rwa [henv.canvas, henv.canvasLen]
  · rwa [henv.racing, State.writable, henv.canvasLen]

theorem cutOutcome_inv {s t : State} {w : Word} (h : cutOutcome s (runWord w s) = .next t)
    (hcanvas : CanvasInv s.canvas s.canvasLen) (hwritable : s.writable s.racing = true) : t.Inv := by
  obtain ⟨u, hu, -⟩ := runWord_next w s
  rw [hu] at h
  obtain rfl := Host.Outcome.next.inj h
  exact TaeInv.settle (taeInv_resetTae _) hcanvas hwritable

/-- A write between commands is committed at once, like a single racing write at the end of a command. -/
theorem hostWrite_take (idx : Nat) (v : Byte) (s : State) (rest : List HostInput) :
    hostWrite idx v (s.take rest []) =
      if s.writable [(idx, v)] then .next (s.take rest [(idx, v)]).settle else .refused .canvasWriteOutside := rfl

/-- Every action of the host keeps the invariant; waiting changes nothing. -/
theorem step_inv {s t : State} (hinv : s.Inv) (hstep : step s = .next t) : t.Inv := by
  have htaken : ∀ rest writes, TaeInv (s.take rest writes) := fun _ _ => ⟨hinv.taeInv.binding, hinv.taeInv.packed⟩
  unfold step at hstep
  split at hstep
  case h_1 =>
    obtain rfl := Host.Outcome.next.inj hstep
    exact hinv
  case h_2 w writes rest _ =>
    split at hstep
    · next hwritable => exact settleOutcome_inv hstep (htaken _ _) hinv.canvasInv hwritable
    · cases hstep
  case h_3 rest _ =>
    obtain rfl := Host.Outcome.next.inj hstep
    exact (taeInv_resetTae _).inv hinv.canvasInv rfl
  case h_4 w writes rest _ =>
    split at hstep
    · next hwritable => exact cutOutcome_inv hstep hinv.canvasInv hwritable
    · cases hstep
  case h_5 idx v rest _ =>
    rw [hostWrite_take] at hstep
    split at hstep
    · next hwritable =>
      obtain rfl := Host.Outcome.next.inj hstep
      exact (htaken _ _).settle hinv.canvasInv hwritable
    · cases hstep
  case h_6 len rest _ =>
    obtain rfl := Host.Outcome.next.inj hstep
    exact TaeInv.inv ⟨hinv.taeInv.binding, hinv.taeInv.packed⟩ (canvasInv_nil len) rfl

/-! ## `CANVAS`, `SPLIT` and `LOADT` -/

/-- R88 for `CANVAS`: the operands stand in the word of format C. -/
theorem decode_wordC_canvas {w h : Nat} (hw : w < 65536) (hh : h < 256) :
    decode (wordC 0x30#8 w h) = .command (.canvas w h) := by
  rw [← encode_canvas hw hh]
  exact Laws.RoundTrip.canvas w h (by simp [Instr.wellFormed, hw, hh])

/-- R88 for `LOADT`: the operand stands in the word of format T. -/
theorem decode_wordT_loadt {t : Nat} (ht : t < 65536) : decode (wordT 0x32#8 t) = .command (.loadt t) := by
  rw [← encode_loadt ht]
  exact Laws.RoundTrip.loadt t (by simp [Instr.wellFormed, ht])

/-- The fields of a `SPLIT` response at their places (R94, R154): none is cut short. -/
theorem splitData_toNat (w : BitVec 16) : (splitData w).toNat = w.toNat / 24 + 2 ^ 16 * (w.toNat % 24) := by
  have hw := w.isLt
  have hdropped : w.toNat % 24 < 24 := Nat.mod_lt _ (by decide)
  simp only [splitData, tileCount, BitVec.toNat_setWidth, toNat_append_eq, BitVec.toNat_ofNat]
  rw [Nat.mod_eq_of_lt (show w.toNat % 24 < 2 ^ 5 by omega), Nat.mod_eq_of_lt (show w.toNat / 24 < 2 ^ 16 by omega)]
  omega

theorem splitData_eq_ofNat (w : BitVec 16) :
    splitData w = BitVec.ofNat 32 (w.toNat / 24 + 2 ^ 16 * (w.toNat % 24)) := by
  rw [← splitData_toNat, BitVec.ofNat_toNat, BitVec.setWidth_eq]

theorem exec_canvas_zero {w h : Nat} (hz : w = 0 ∨ h = 0) (s : State) :
    exec (.canvas w h) s = .next (s.raise .constructionError (encode (.canvas w h))) := by
  simp only [exec, execCanvas, if_pos hz, commandWord]

theorem exec_canvas_nonzero {w h : Nat} (hw : w ≠ 0) (hh : h ≠ 0) (s : State) :
    exec (.canvas w h) s = .next ({ s with
      canvasW := BitVec.ofNat 16 w
      canvasH := BitVec.ofNat 8 h
      status := setStatusBit s.status 0
      tileIx := 0#16 }.respond .ok (BitVec.ofNat 32 (w / 24))) := by
  simp only [exec, execCanvas, if_neg (not_or.mpr ⟨hw, hh⟩)]

section
variable {s : State}

/-- R153: unbound use raises ConstructionError with the command word as data. -/
theorem exec_unbound {i : Instr} (hi : i.mnemonic ∈ ["SPLIT", "LOADT", "RENDER"]) (h : s.bound = false) :
    exec i s = .next (s.raise .constructionError (encode i)) := by
  cases i with
  | split => simp only [exec, execSplit, h, commandWord]
  | loadt t => simp only [exec, execLoadt, h, commandWord]
  | render b clip => simp only [exec, execRender, h, commandWord]
  | _ => simp [Instr.mnemonic] at hi

theorem exec_split_bound (h : s.bound = true) : exec .split s = .next (s.respond .ok (splitData s.canvasW)) := by
  simp only [exec, execSplit, h]

/-- R157, bound: no such tile is a BoundsViolation, and so is a slice that cannot be loaded. -/
theorem exec_loadt_fault {t : Nat} (hbound : s.bound = true)
    (h : tileCount s.canvasW ≤ t ∨ loadSlice s t = none) :
    exec (.loadt t) s = .next (s.raise .boundsViolation (encode (.loadt t))) := by
  simp only [exec, execLoadt, hbound, loadTile]
  by_cases hcount : tileCount s.canvasW ≤ t
  · rw [if_pos hcount, finish_ended, commandWord]
  · rw [if_neg hcount, h.resolve_left hcount, finish_ended, commandWord]

theorem exec_loadt_of_loadSlice {t : Nat} {u : Tile} (hbound : s.bound = true) (hcount : t < tileCount s.canvasW)
    (hu : loadSlice s t = some u) :
    exec (.loadt t) s =
      .next ({ s with tile := u, tileIx := BitVec.ofNat 16 t }.respond .ok (BitVec.ofNat 32 (24 * t))) := by
  simp only [exec, execLoadt, hbound, loadTile, if_neg (Nat.not_le.mpr hcount), hu, finish_done]

/-- A pixel of the slice has a byte below the canvas, and on it where the memory does (R156). -/
theorem sliceByte_isSome_iff (t x y : Nat) : (sliceByte s t x y).isSome = true ↔
    (y < s.canvasH.toNat → sliceIndex s.canvasW.toNat t x y < s.canvasLen) := by
  unfold sliceByte
  split
  · next hy => simp [canvasRead_isSome, hy]
  · next hy => simp [hy]

/-- Which slices can be loaded (R157): those of a canvas that fits the tile, with no read outside the memory. -/
theorem loadSlice_isSome_iff_inside (t : Nat) : (loadSlice s t).isSome = true ↔ s.canvasH.toNat ≤ 5 ∧
    ∀ x < 24, ∀ y < 5, y < s.canvasH.toNat → sliceIndex s.canvasW.toNat t x y < s.canvasLen := by
  simp only [loadSlice_isSome_iff, sliceByte_isSome_iff]

theorem loadSlice_eq_none {t : Nat} (h : 5 < s.canvasH.toNat ∨ ∃ x < 24, ∃ y < 5,
    y < s.canvasH.toNat ∧ s.canvasLen ≤ sliceIndex s.canvasW.toNat t x y) : loadSlice s t = none := by
  rw [← Option.not_isSome_iff_eq_none, loadSlice_isSome_iff_inside]
  rintro ⟨hheight, hinside⟩
  rcases h with htall | ⟨x, hx, y, hy, hyH, hout⟩
  · omega
  · exact absurd (hinside x hx y hy hyH) (Nat.not_lt.mpr hout)

end

end Sys2Proof.Machine

namespace Sys2Proof.Proofs.Partitioner

/-- Settles O25: a step is one action of the host, and `step_inv` goes through them. The key facts are that a decoded
`CANVAS` cannot wrap a dimension to zero and that an encoded tile sets no unmapped bit. -/
theorem invariantIsKeptByEveryStep : Obligations.InvariantIsKeptByEveryStep :=
  fun _ _ => step_inv

/-- Settles O36: bound, `splitData_eq_ofNat` gives the two fields; unbound, the fault sets bit 1 of `STATUS`. -/
theorem splitAnswersTilesAndDroppedColumns : Obligations.SplitAnswersTilesAndDroppedColumns := by
  refine ⟨?_, fun s => ⟨fun hbound => ?_, exec_unbound (by decide)⟩⟩
  · obtain ⟨-, -, -, -, hsplit⟩ := encode_formatZ
    exact hsplit ▸ Laws.RoundTrip.split rfl
  · rw [exec_split_bound hbound, splitData_eq_ofNat]
    rfl

/-- Settles O38: the three BoundsViolation cases are a tile that does not exist and a slice that cannot be loaded; a
slice that is loaded is the canvas read pixel by pixel. -/
theorem loadtCopiesTheWholeSliceOrNothing : Obligations.LoadtCopiesTheWholeSliceOrNothing := by
  intro t s
  refine ⟨decode_wordT_loadt, exec_unbound (by simp [Instr.mnemonic]), fun hbound hfault => ?_,
    fun hbound hcount hheight hinside => ?_⟩
  · exact exec_loadt_fault hbound (hfault.imp_right loadSlice_eq_none)
  · obtain ⟨u, hu⟩ := Option.isSome_iff_exists.mp ((loadSlice_isSome_iff_inside t).mpr ⟨hheight, hinside⟩)
    obtain ⟨-, -, hpixels⟩ := loadSlice_eq_some hu
    exact ⟨_, exec_loadt_of_loadSlice hbound hcount hu, hpixels, rfl⟩

/-- Settles O35: `BOUND` is bit 0 of `STATUS`, and the sticky bit of ConstructionError is bit 1. -/
theorem canvasBindsOrRaisesConstructionError : Obligations.CanvasBindsOrRaisesConstructionError := by
  intro w h s
  exact ⟨decode_wordC_canvas, fun ⟨hw, hh⟩ => exec_canvas_nonzero hw hh s, fun hzero => exec_canvas_zero hzero s⟩

end Sys2Proof.Proofs.Partitioner
end

