-- ==== Sys2Proof/Proofs/Emission.lean ====
section
/-!
The output side: the calls of a tile are what the statements say that it sends (R170 to R172), and the command word of
`RENDER` shows in a fault's data only (R177). Settles the family `43_emission.md`.
-/

open Sys2Proof Sys2Proof.Machine Sys2Proof.Format Sys2Proof.Spec

namespace Sys2Proof.Machine

/-- R88 for `EMIT`: the operands stand in the word of format B. -/
theorem decode_wordB_emit (b : Bool) {t : Nat} (ht : t < 65536) :
    decode (wordB 0x40#8 b t) = .command (.emit t b) := by
  rw [← encode_emit b ht]
  exact Laws.RoundTrip.emit t b (by simp [Instr.wellFormed, ht])

/-! ## The calls of a tile -/

/-- The bytes of a table in slot order (R171). -/
def tableBytes (s : State) (b : Bool) : TableKind → List Byte
  | .onoff => s.onoff.toList
  | .blink => List.replicate 24 0x00#8
  | .pwm => brightness b s.pwm

section
variable (s : State) (t : BitVec 16) (b : Bool)

theorem tableBytes_length (kind : TableKind) : (tableBytes s b kind).length = tableLen kind := by
  cases kind with
  | onoff => exact Vector.length_toList
  | blink => exact List.length_replicate
  | pwm => cases b with
    | true => exact Vector.length_toList
    | false => exact List.length_replicate

/-- Entry `i` of a table is byte `i` of the buffer that it is sent from, or the table's constant byte. -/
theorem tableBytes_getElem (kind : TableKind) (i : Nat) (hi : i < (tableBytes s b kind).length) :
    (tableBytes s b kind)[i] = tableEntry s b i kind := by
  have hlen : i < tableLen kind := tableBytes_length s b kind ▸ hi
  cases kind with
  | onoff =>
    rw [tableEntry, readOnOff_inside s.onoff hlen]
    exact Vector.getElem_toList hi
  | blink => exact List.getElem_replicate hi
  | pwm => cases b with
    | true =>
      rw [tableEntry, brightOut, readPwm_inside s.pwm hlen]
      exact Vector.getElem_toList hi
    | false => exact List.getElem_replicate hi

/-- R171: a table is its `PRE` and then its bytes, in slots from 0 since every slot base is 0. -/
theorem tableCalls_eq (kind : TableKind) :
    tableCalls s t b kind = regCalls (preWrites s kind t) ++ slotCalls (tableBytes s b kind) := by
  have hbase : Config.slotBase kind = 0 := by cases kind <;> rfl
  refine congrArg (regCalls (preWrites s kind t) ++ ·) (List.ext_getElem ?_ fun i _ _ => ?_)
  · simp [slotCalls, tableBytes_length]
  · simp [slotCalls, tableBytes_getElem, hbase]

/-- R170, R172: the calls of a tile, without their tables, are what the tile is said to send. -/
theorem tileCalls_map_snd : (tileCalls s t b).map Prod.snd = tileSends s t b s.onoff s.pwm := by
  simp [tileCalls, tileSends, tableCalls_eq, tableBytes, Function.comp_def]

/-- R172 when every call is answered `ok`: the whole tile is sent. -/
theorem emitTile_all_ok (h : ∀ m < (tileSends s t b s.onoff s.pwm).length, answerAt s m = .ok) :
    emitTile t b s = .done (s.sent (answeredOk (tileSends s t b s.onoff s.pwm))) := by
  rw [← tileCalls_map_snd] at h ⊢
  have hissue := issueCalls_all_ok (answer := answerAt s) (calls := tileCalls s t b) (n := 0)
    fun m hm => (Nat.zero_add m).symm ▸ h m (by rwa [List.length_map])
  simp [emitTile, hissue, answeredOk, Function.comp_def]

end

/-! ## The recorded command word -/

/-- The same work, when its BoundsViolation records another command word. -/
def Work.recording (cmd : Word) : Work → Work
  | .ended .boundsViolation _ s => .ended .boundsViolation cmd s
  | w => w

theorem emitTile_recording (cmd : Word) (t : BitVec 16) (b : Bool) (s : State) :
    (emitTile t b s).recording cmd = emitTile t b s := by
  unfold emitTile
  split <;> rfl

theorem renderTile_recording (cmd cmd' : Word) (b : Bool) (t : Nat) (s : State) :
    (renderTile cmd b t s).recording cmd' = renderTile cmd' b t s := by
  unfold renderTile
  split
  · exact emitTile_recording _ _ _ _
  · rfl

/-- `RENDER`'s loop uses its command word for nothing but the data of a BoundsViolation (R176). -/
theorem renderTiles_recording (cmd cmd' : Word) (b : Bool) (ts : List Nat) (s : State) :
    (renderTiles cmd b ts s).recording cmd' = renderTiles cmd' b ts s := by
  induction ts generalizing s with
  | nil => rfl
  | cons t ts ih =>
    simp only [renderTiles, ← renderTile_recording cmd cmd']
    cases renderTile cmd b t s with
    | done s' => exact ih s'
    | ended k d s' => cases k <;> rfl

/-- Two next states of a command, after the responses `earlier`, are equal but for the command word that a fault
recorded: a TransportFailure and `OK` record none (R94). -/
def SameButRecordedWord (earlier : List Response) (t t' : State) : Prop :=
  ∃ r r', { t with responses := t'.responses } = t' ∧
    t.responses = earlier ++ [r] ∧ t'.responses = earlier ++ [r'] ∧ r.code = r'.code ∧
    (r.code = .ok ∨ r.code = .raised .transportFailure → r.data = r'.data)

theorem sameButRecordedWord_raise {k : FaultKind} (hk : k ≠ .transportFailure) (d d' : Word) (s : State) :
    SameButRecordedWord s.responses (s.raise k d) (s.raise k d') :=
  ⟨⟨.raised k, d⟩, ⟨.raised k, d'⟩, rfl, rfl, rfl, rfl, by simp [hk]⟩

theorem sameButRecordedWord_self (w : Work) (d : Word) :
    SameButRecordedWord w.state.responses (w.finish d) (w.finish d) := by
  obtain ⟨r, hr⟩ := finish_responses w d
  exact ⟨r, r, rfl, hr, hr, rfl, fun _ => rfl⟩

theorem finish_recording (w : Work) (cmd d : Word) :
    SameButRecordedWord w.state.responses (w.finish d) ((w.recording cmd).finish d) := by
  cases w with
  | done s => exact sameButRecordedWord_self (.done s) d
  | ended k e s => cases k with
    | boundsViolation => exact sameButRecordedWord_raise (by decide) e cmd s
    | constructionError | transportFailure | illegalCommand => exact sameButRecordedWord_self (.ended _ e s) d

theorem exec_render_bound {s : State} (b : Bool) (clip : Nat) (h : s.bound = true) :
    exec (.render b clip) s =
      .next ((renderTiles (encode (.render b clip)) b (List.range (tileCount s.canvasW)) s).finish
        (BitVec.ofNat 32 (tileCount s.canvasW))) := by
  simp only [exec, execRender, h, commandWord]

/-- R177: another clip value is another command word and nothing else. -/
theorem exec_render_clip (b : Bool) (clip clip' : Nat) (s : State) :
    ∃ t t', exec (.render b clip) s = .next t ∧ exec (.render b clip') s = .next t' ∧
      SameButRecordedWord s.responses t t' := by
  cases hbound : s.bound with
  | false =>
    exact ⟨_, _, exec_unbound (by simp [Instr.mnemonic]) hbound, exec_unbound (by simp [Instr.mnemonic]) hbound,
      sameButRecordedWord_raise (by decide) _ _ s⟩
  | true =>
    refine ⟨_, _, exec_render_bound b clip hbound, exec_render_bound b clip' hbound, ?_⟩
    have hkept := renderTiles_kept (encode (.render b clip)) b (List.range (tileCount s.canvasW)) s
    rw [← hkept.responses, ← renderTiles_recording (encode (.render b clip)) (encode (.render b clip'))]
    exact finish_recording _ _ _

end Sys2Proof.Machine

namespace Sys2Proof.Proofs.Emission

/-- Settles O40: `emitTile_all_ok` at the state that holds the new `TILE_IX`, which neither the calls nor the answers
depend on. -/
theorem emitSendsTheThreeTablesInOrder : Obligations.EmitSendsTheThreeTablesInOrder := by
  intro t b s
  refine ⟨decode_wordB_emit b, fun hok => ?_⟩
  rw [exec_emit, emitTile_all_ok { s with tileIx := BitVec.ofNat 16 t } (BitVec.ofNat 16 t) b hok, finish_done]
  simp [State.sent, State.respond, answeredOk, tileSends, preWrites]

/-- Settles O50: the loop of `RENDER` passes its command word on to a BoundsViolation, and unbound use records it. -/
theorem clipFieldHasNoEffect : Obligations.ClipFieldHasNoEffect := by
  intro b clip clip' s
  obtain ⟨t, t', ht, ht', r, r', hsame⟩ := exec_render_clip b clip clip' s
  exact ⟨t, t', r, r', ht, ht', hsame⟩

end Sys2Proof.Proofs.Emission
end

