-- ==== Sys2Proof/Proofs/System.lean ====
section
/-!
`NOP`, `RST` and the read-back commands of the tile and of the two buffers (R190, R191, R194 to R196): each command's
word, and what it answers when its operand names a byte and when it names none. Settles the family `44_system.md`.
-/

open Sys2Proof Sys2Proof.Machine Sys2Proof.Format

namespace Sys2Proof.Machine

theorem exec_nop (s : State) : exec .nop s = .next (s.respond .ok 0) := rfl

/-! ## The words of the read-back commands (R88) -/

theorem decode_wordXY_rdtp {x y : Nat} (hx : x < 32) (hy : y < 8) :
    decode (wordXY 0x51#8 x y) = .command (.rdtp x y) := by
  rw [← encode_rdtp hx hy]
  exact Laws.RoundTrip.rdtp x y (by simp [Instr.wellFormed, hx, hy])

theorem decode_wordI_rdoo {i : Nat} (hi : i < 256) : decode (wordI 0x52#8 i) = .command (.rdoo i) := by
  rw [← encode_rdoo hi]
  exact Laws.RoundTrip.rdoo i (by simp [Instr.wellFormed, hi])

theorem decode_wordI_rdpw {i : Nat} (hi : i < 256) : decode (wordI 0x53#8 i) = .command (.rdpw i) := by
  rw [← encode_rdpw hi]
  exact Laws.RoundTrip.rdpw i (by simp [Instr.wellFormed, hi])

/-! ## Reading back a byte -/

section
variable {s : State} {p : Byte}

theorem exec_rdtp_of_pixel {x y : Nat} (h : readPixel s.tile x y = some p) :
    exec (.rdtp x y) s = .next (s.respond .ok (BitVec.ofNat 32 p.toNat)) := by
  simp only [exec, execRdtp, h, BitVec.ofNat_toNat]

theorem exec_rdtp_of_no_pixel {x y : Nat} (h : readPixel s.tile x y = none) :
    exec (.rdtp x y) s = .next (s.raise .boundsViolation (encode (.rdtp x y))) := by
  simp only [exec, execRdtp, h, commandWord]

theorem exec_rdoo_of_byte {i : Nat} (h : readOnOff s.onoff i = some p) :
    exec (.rdoo i) s = .next (s.respond .ok (BitVec.ofNat 32 p.toNat)) := by
  simp only [exec, execRdoo, h, BitVec.ofNat_toNat]

theorem exec_rdoo_of_no_byte {i : Nat} (h : readOnOff s.onoff i = none) :
    exec (.rdoo i) s = .next (s.raise .boundsViolation (encode (.rdoo i))) := by
  simp only [exec, execRdoo, h, commandWord]

theorem exec_rdpw_of_byte {i : Nat} (h : readPwm s.pwm i = some p) :
    exec (.rdpw i) s = .next (s.respond .ok (BitVec.ofNat 32 p.toNat)) := by
  simp only [exec, execRdpw, h, BitVec.ofNat_toNat]

theorem exec_rdpw_of_no_byte {i : Nat} (h : readPwm s.pwm i = none) :
    exec (.rdpw i) s = .next (s.raise .boundsViolation (encode (.rdpw i))) := by
  simp only [exec, execRdpw, h, commandWord]

end

end Sys2Proof.Machine

namespace Sys2Proof.Proofs.System

/-- Settles O9: `RST` is `resetTae` and a response. Putting the TAE's own fields back gives the state before, with
the response, so nothing else was touched. -/
theorem rstGivesTheResetState : Obligations.RstGivesTheResetState := by
  refine ⟨?_, fun s => ⟨_, exec_rst s, (resetTae_atResetValues s).respond _ _, rfl⟩⟩
  obtain ⟨-, hrst, -⟩ := encode_formatZ
  exact hrst ▸ Laws.RoundTrip.rst rfl

/-- Settles O51: the all-zero word is the encoder's word of `NOP`, and `NOP` is a response alone. -/
theorem nopDoesNothing : Obligations.NopDoesNothing := by
  obtain ⟨hnop, -⟩ := encode_formatZ
  exact ⟨hnop ▸ Laws.RoundTrip.nop rfl, exec_nop⟩

/-- Settles O53: a coordinate names a pixel exactly inside the tile. The sticky bit of BoundsViolation is bit 2 of
`STATUS`, here and for the buffers. -/
theorem rdtpReadsOnePixel : Obligations.RdtpReadsOnePixel := by
  intro x y s
  exact ⟨decode_wordXY_rdtp, fun hx hy => exec_rdtp_of_pixel (readPixel_inside s.tile hx hy),
    fun hout => exec_rdtp_of_no_pixel (readPixel_outside s.tile hout)⟩

/-- Settles O54: an index names a byte of the on/off bitmap exactly below 24. -/
theorem rdooReadsOneByte : Obligations.RdooReadsOneByte := by
  intro i s
  exact ⟨decode_wordI_rdoo, fun hi => exec_rdoo_of_byte (readOnOff_inside s.onoff hi),
    fun hout => exec_rdoo_of_no_byte (readOnOff_outside s.onoff (Nat.not_lt.mpr hout))⟩

/-- Settles O55: an index names a byte of the brightness table exactly below 131. -/
theorem rdpwReadsOneByte : Obligations.RdpwReadsOneByte := by
  intro i s
  exact ⟨decode_wordI_rdpw, fun hi => exec_rdpw_of_byte (readPwm_inside s.pwm hi),
    fun hout => exec_rdpw_of_no_byte (readPwm_outside s.pwm (Nat.not_lt.mpr hout))⟩

end Sys2Proof.Proofs.System
end

