-- ==== Sys2Proof/Proofs/Exceptions.lean ====
section
/-!
The four faults (R210 to R214): what raises ConstructionError, the word that is no command, the first failing call of
`EMIT`, and the sticky bits, which no command reads but `RDCR 0` (R23). Settles the family `60_exceptions.md`.
-/

open Sys2Proof Sys2Proof.Machine Sys2Proof.Format Sys2Proof.Spec

namespace Sys2Proof

/-! ## Words that are no command, or an `RDCR` of a reserved register -/

/-- R90: a word that selects no row of R89's table is illegal. -/
theorem decode_of_no_row {w : Word} (h : ∀ r ∈ opcodeTable, w &&& r.mask ≠ r.matchBits) :
    ∃ e, decode w = .illegal e := by
  cases hdecode : decode w with
  | illegal e => exact ⟨e, rfl⟩
  | command i =>
    obtain ⟨r, hr, -, hrow⟩ := row_of_decode hdecode
    exact absurd ((and_mask_eq_matchBits_iff hr).mpr hrow) (h r hr)

/-- A word is its bits 31:8 and its bits 7:0. -/
theorem toNat_eq_fields (w : Word) : w.toNat = field w 31 8 * 2 ^ 8 + field w 7 0 := by
  have hw := w.isLt
  simp only [field]
  omega

/-- A word under R89's mask of `RDCR` is the encoder's word of `RDCR` of its bits 7:0. -/
theorem eq_encode_rdcr {w : Word} (h : w &&& 0xFFFFFF00#32 = 0x50000000#32) : w = encode (.rdcr (field w 7 0)) := by
  have hhigh : field w 31 8 = field 0x50000000#32 31 8 := (and_fieldMask_eq_iff (by decide)).mp h
  exact eq_assemble (op := 0x50#8) (by rw [toNat_eq_fields, hhigh]; rfl)

theorem decode_of_rdcr_mask {w : Word} (h : w &&& 0xFFFFFF00#32 = 0x50000000#32) :
    decode w = .command (.rdcr (field w 7 0)) := by
  have hn : field w 7 0 < 256 := Nat.mod_lt _ (by decide)
  rw (occs := [1]) [eq_encode_rdcr h]
  exact Laws.RoundTrip.rdcr _ (by simp [Instr.wellFormed, hn])

end Sys2Proof

namespace Sys2Proof.Machine

theorem exec_rdcr_of_register {n : Nat} {s : State} {v : Word} (h : readControl s n = some v) :
    exec (.rdcr n) s = .next (s.respond .ok v) := by
  simp only [exec, execRdcr, h]

theorem exec_rdcr_of_no_register {n : Nat} {s : State} (h : readControl s n = none) :
    exec (.rdcr n) s = .next (s.raise .illegalCommand (encode (.rdcr n))) := by
  simp only [exec, execRdcr, h, commandWord]

/-- R214 for a reserved register: the data is the word, as the encoder's word is the one that came. -/
theorem runWord_of_rdcr_reserved {w : Word} (hmask : w &&& 0xFFFFFF00#32 = 0x50000000#32)
    (hn : 5 ≤ (w &&& 0x000000FF#32).toNat) (s : State) : runWord w s = .next (s.raise .illegalCommand w) := by
  have hfield : (w &&& 0x000000FF#32).toNat = field w 7 0 := and_fieldMask_toNat w (hi := 7) 0 (by decide)
  rw [runWord_of_command (decode_of_rdcr_mask hmask),
    exec_rdcr_of_no_register (readControl_reserved s (hfield ▸ hn)), ← eq_encode_rdcr hmask]

/-! ## Which commands raise ConstructionError -/

theorem exec_loadt_bound {t : Nat} {s : State} (h : s.bound = true) : exec (.loadt t) s =
    .next ((loadTile t (encode (.loadt t)) s).finish (BitVec.ofNat 32 (24 * t))) := by
  simp only [exec, execLoadt, h, commandWord]

/-- R211's two cases. -/
def RaisesConstruction (i : Instr) (s : State) : Prop :=
  (∃ w h, i = .canvas w h ∧ (w = 0 ∨ h = 0)) ∨ (s.bound = false ∧ i.mnemonic ∈ ["SPLIT", "LOADT", "RENDER"])

theorem exec_raisesConstruction {i : Instr} {s : State} (h : RaisesConstruction i s) :
    exec i s = .next (s.raise .constructionError (encode i)) := by
  rcases h with ⟨w, c, rfl, hzero⟩ | ⟨hunbound, hi⟩
  · exact exec_canvas_zero hzero s
  · exact exec_unbound hi hunbound

theorem bound_of_not_raisesConstruction {i : Instr} {s : State} (h : ¬ RaisesConstruction i s)
    (hi : i.mnemonic ∈ ["SPLIT", "LOADT", "RENDER"]) : s.bound = true :=
  Bool.eq_true_of_not_eq_false fun hunbound => h (.inr ⟨hunbound, hi⟩)

theorem nonzero_of_not_raisesConstruction {w c : Nat} {s : State} (h : ¬ RaisesConstruction (.canvas w c) s) :
    w ≠ 0 ∧ c ≠ 0 :=
  not_or.mp fun hzero => h (.inl ⟨w, c, rfl, hzero⟩)

/-- `t` has one response more than `s`, and it is no ConstructionError. -/
def AnswersOther (s t : State) : Prop :=
  ∃ r, t.responses = s.responses ++ [r] ∧ r.code ≠ .raised .constructionError

section
variable {s u : State}

theorem answersOther_respond (h : u.responses = s.responses) (d : Word) : AnswersOther s (u.respond .ok d) :=
  ⟨⟨.ok, d⟩, by rw [respond_responses, h], nofun⟩

theorem answersOther_raise {k : FaultKind} (hk : k ≠ .constructionError) (h : u.responses = s.responses) (d : Word) :
    AnswersOther s (u.raise k d) :=
  ⟨⟨.raised k, d⟩, by rw [raise_responses, h], fun e => hk (RespCode.raised.inj e)⟩

theorem loadTile_answersOther (t : Nat) (cmd d : Word) : AnswersOther s ((loadTile t cmd s).finish d) := by
  unfold loadTile
  split
  · exact answersOther_raise (by decide) rfl _
  · split
    · exact answersOther_respond rfl _
    · exact answersOther_raise (by decide) rfl _

theorem emitTile_answersOther (t : BitVec 16) (b : Bool) (d : Word) : AnswersOther s ((emitTile t b s).finish d) := by
  unfold emitTile
  split
  · exact answersOther_respond rfl _
  · exact answersOther_raise (by decide) rfl _

theorem renderTiles_answersOther (cmd : Word) (b : Bool) (ts : List Nat) (d : Word) :
    AnswersOther s ((renderTiles cmd b ts s).finish d) := by
  have hkept := renderTiles_kept cmd b ts s
  cases hwork : renderTiles cmd b ts s with
  | done u => exact answersOther_respond (hwork ▸ hkept).responses d
  | ended k e u =>
    have hk : k ≠ .constructionError := by
      obtain ⟨rfl, -⟩ | rfl := renderTiles_ended hwork
      · decide
      · decide
    exact answersOther_raise hk (hwork ▸ hkept).responses e

end

/-- R211: outside its two cases no command raises ConstructionError. -/
theorem exec_answersOther {i : Instr} {s : State} (h : ¬ RaisesConstruction i s) :
    ∃ t, exec i s = .next t ∧ AnswersOther s t := by
  have hbound := bound_of_not_raisesConstruction h
  cases i with
  | nop | rst | tclr => exact ⟨_, rfl, answersOther_respond rfl _⟩
  | encode => exact ⟨_, rfl, answersOther_respond (encodeBuffers_responses s) _⟩
  | map | tpix | rdcr | rdtp | rdoo | rdpw =>
    refine ⟨_, rfl, ?_⟩
    split
    · exact answersOther_respond rfl _
    · exact answersOther_raise (by decide) rfl _
  | canvas w c =>
    obtain ⟨hw, hc⟩ := nonzero_of_not_raisesConstruction h
    exact ⟨_, exec_canvas_nonzero hw hc s, answersOther_respond rfl _⟩
  | split => exact ⟨_, exec_split_bound (hbound (by decide)), answersOther_respond rfl _⟩
  | loadt t => exact ⟨_, exec_loadt_bound (hbound (by simp [Instr.mnemonic])), loadTile_answersOther _ _ _⟩
  | emit t b => exact ⟨_, exec_emit t b s, emitTile_answersOther (s := { s with tileIx := _ }) _ _ _⟩
  | render b clip =>
    exact ⟨_, exec_render_bound b clip (hbound (by simp [Instr.mnemonic])), renderTiles_answersOther _ _ _ _⟩

/-! ## The first failing call of a tile -/

section
variable {s : State} {t : BitVec 16} {b : Bool} {m : Nat}

theorem tableCalls_length (s : State) (t : BitVec 16) (b : Bool) (kind : TableKind) :
    (tableCalls s t b kind).length = (preWrites s kind t).length + tableLen kind := by
  simp [tableCalls]

/-- R170: the tables of a tile's calls, in the order in which they are sent. -/
theorem tileCalls_map_fst (s : State) (t : BitVec 16) (b : Bool) : (tileCalls s t b).map Prod.fst =
    List.replicate ((preWrites s .onoff t).length + 24) .onoff ++
      (List.replicate ((preWrites s .blink t).length + 24) .blink ++
        List.replicate ((preWrites s .pwm t).length + 131) .pwm) := by
  simp [tileCalls, Function.comp_def, tableCalls_length, tableLen, Config.blinkLen]

/-- R95: the number of the table that a call belongs to. -/
theorem kindNumber_tileCalls (hm : m < (tileCalls s t b).length) :
    kindNumber (tileCalls s t b)[m].1 = sendKind s t m := by
  have hmap : (tileCalls s t b)[m].1 = ((tileCalls s t b).map Prod.fst)[m]'(by simpa using hm) := by simp
  simp only [hmap, tileCalls_map_fst, List.getElem_append, List.getElem_replicate, List.length_replicate, sendKind]
  split
  · rfl
  · next hon =>
    by_cases hblink : m - ((preWrites s .onoff t).length + 24) < (preWrites s .blink t).length + 24
    · rw [dif_pos hblink, if_pos (by omega)]; rfl
    · rw [dif_neg hblink, if_neg (by omega)]; rfl

/-- The fields of a TransportFailure's data at their places (R94): a table's number takes two bits. -/
theorem failureData_eq_ofNat (kind : TableKind) (t : Nat) :
    failureData kind (BitVec.ofNat 16 t) = BitVec.ofNat 32 (2 ^ 16 * kindNumber kind + t % 2 ^ 16) := by
  have hkind : kindNumber kind < 4 := by cases kind <;> decide
  apply BitVec.eq_of_toNat_eq
  simp only [failureData, BitVec.toNat_setWidth, toNat_append_eq, BitVec.toNat_ofNat]
  omega

/-- What the transport sees of `calls` when call `m` is the first one answered `fail` (R174). -/
def eventsUpTo (calls : List TxCall) (m : Nat) : List TxEvent :=
  answeredOk (calls.take m) ++ answeredFail ((calls.drop m).take 1)

theorem eventsUpTo_length {calls : List TxCall} (hm : m < calls.length) : (eventsUpTo calls m).length = m + 1 := by
  simp [eventsUpTo, answeredOk, answeredFail, List.take_one_drop_eq_of_lt_length hm, hm.le]

/-- R174: the first call answered `fail` ends the tile, and its table is named. -/
theorem emitTile_first_fail {calls : List TxCall} (hcalls : (tileCalls s t b).map Prod.snd = calls)
    (hm : m < calls.length) (hok : ∀ j < m, answerAt s j = .ok) (hfail : answerAt s m = .fail) :
    ∃ kind, kindNumber kind = sendKind s t m ∧
      emitTile t b s = .ended .transportFailure (failureData kind t) (s.sent (eventsUpTo calls m)) := by
  subst hcalls
  have hlt : m < (tileCalls s t b).length := by rwa [List.length_map] at hm
  have hissue := issueCalls_first_fail (answer := answerAt s) (n := 0) hlt
    (fun j hj => (Nat.zero_add j).symm ▸ hok j hj) ((Nat.zero_add m).symm ▸ hfail)
  refine ⟨_, kindNumber_tileCalls hlt, ?_⟩
  simp [emitTile, hissue, eventsUpTo, answeredOk, answeredFail, List.take_one_drop_eq_of_lt_length hm,
    Function.comp_def]

end

/-! ## The sticky bits record, they do not gate -/

/-- The state with the bits `m` of `STATUS` set besides. -/
def State.withSticky (m : BitVec 16) (s : State) : State := { s with status := s.status ||| m }

/-- The same work, reaching its state with the bits `m` of `STATUS` set besides. -/
def Work.withSticky (m : BitVec 16) : Work → Work
  | .done s => .done (s.withSticky m)
  | .ended k d s => .ended k d (s.withSticky m)

section
variable (m : BitVec 16) (s : State)

theorem setStatusBit_or (v : BitVec 16) (n : Nat) : setStatusBit (v ||| m) n = setStatusBit v n ||| m := by
  rw [setStatusBit, setStatusBit, BitVec.or_assoc, BitVec.or_comm m, BitVec.or_assoc]

theorem raise_withSticky (k : FaultKind) (d : Word) : (s.withSticky m).raise k d = (s.raise k d).withSticky m := by
  simp only [State.raise, State.withSticky, setStatusBit_or]

/-- Work that reaches its state with the bits set ends with them set. -/
theorem finish_withSticky {v w : Work} (h : v = w.withSticky m) (d : Word) :
    v.finish d = (w.finish d).withSticky m := by
  subst h
  cases w with
  | done s => rfl
  | ended k e s => exact raise_withSticky m s k e

/-- `BOUND` is no sticky bit. -/
theorem bound_withSticky (hm : m &&& 0x001E#16 = m) : (s.withSticky m).bound = s.bound := by
  have hzero : m.getLsbD 0 = false := by rw [← hm, BitVec.getLsbD_and]; simp
  rw [State.bound, State.withSticky, BitVec.getLsbD_or, hzero, Bool.or_false, State.bound]

theorem loadSlice_withSticky (t : Nat) : loadSlice (s.withSticky m) t = loadSlice s t := by
  have hbyte : sliceByte (s.withSticky m) t = sliceByte s t := rfl
  simp only [loadSlice, sliceTile, hbyte]
  rfl

theorem loadTile_withSticky (t : Nat) (cmd : Word) :
    loadTile t cmd (s.withSticky m) = (loadTile t cmd s).withSticky m := by
  have hwidth : (s.withSticky m).canvasW = s.canvasW := rfl
  simp only [loadTile, loadSlice_withSticky, hwidth]
  split
  · rfl
  · cases loadSlice s t with
    | some u => rfl
    | none => rfl

theorem emitTile_withSticky (t : BitVec 16) (b : Bool) :
    emitTile t b (s.withSticky m) = (emitTile t b s).withSticky m := by
  have hcalls : tileCalls (s.withSticky m) t b = tileCalls s t b := rfl
  have hanswer : answerAt (s.withSticky m) = answerAt s := rfl
  simp only [emitTile, hcalls, hanswer]
  obtain ⟨es, _ | kind⟩ := issueCalls (answerAt s) (tileCalls s t b) 0
  · rfl
  · rfl

theorem renderTile_withSticky (cmd : Word) (b : Bool) (t : Nat) :
    renderTile cmd b t (s.withSticky m) = (renderTile cmd b t s).withSticky m := by
  simp only [renderTile, loadSlice_withSticky]
  cases loadSlice s t with
  | some u => exact emitTile_withSticky m { s with tileIx := _, tile := u }.encodeBuffers _ _
  | none => rfl

theorem renderTiles_withSticky (cmd : Word) (b : Bool) (ts : List Nat) :
    renderTiles cmd b ts (s.withSticky m) = (renderTiles cmd b ts s).withSticky m := by
  induction ts generalizing s with
  | nil => rfl
  | cons t ts ih =>
    simp only [renderTiles, renderTile_withSticky]
    cases renderTile cmd b t s with
    | done s' => exact ih s'
    | ended k d s' => rfl

/-- Every control register but `STATUS` reads the same. -/
theorem readControl_withSticky : ∀ {n : Nat}, n ≠ 0 → readControl (s.withSticky m) n = readControl s n
  | 0, h => absurd rfl h
  | 1, _ | 2, _ | 3, _ | 4, _ => rfl
  | n + 5, _ => by rw [readControl_reserved _ (by omega), readControl_reserved _ (by omega)]

/-- The command leads from the state with the bits `m` set besides to the same next state with `m` set besides. -/
def CarriesSticky (i : Instr) : Prop :=
  ∃ t, exec i s = .next t ∧ exec i (s.withSticky m) = .next (t.withSticky m)

variable {m s} {i : Instr}

theorem carriesSticky_of_raise {k : FaultKind} {d : Word} (h : exec i s = .next (s.raise k d))
    (hm : exec i (s.withSticky m) = .next ((s.withSticky m).raise k d)) : CarriesSticky m s i :=
  ⟨_, h, by rw [hm, raise_withSticky]⟩

theorem carriesSticky_of_finish {v w : Work} {d : Word} (h : exec i s = .next (w.finish d))
    (hm : exec i (s.withSticky m) = .next (v.finish d)) (hvw : v = w.withSticky m) : CarriesSticky m s i :=
  ⟨_, h, by rw [hm, finish_withSticky m hvw]⟩

/-- R23: `RST` and `RDCR 0` apart, a command carries the sticky bits along and does nothing else with them. -/
theorem exec_carriesSticky (hsticky : m &&& 0x001E#16 = m) (hrst : i ≠ .rst) (hrdcr : i ≠ .rdcr 0) :
    CarriesSticky m s i := by
  have hbound : (s.withSticky m).bound = s.bound := bound_withSticky m s hsticky
  by_cases hraises : RaisesConstruction i s
  · have hraises' : RaisesConstruction i (s.withSticky m) := by rwa [RaisesConstruction, hbound]
    exact carriesSticky_of_raise (exec_raisesConstruction hraises) (exec_raisesConstruction hraises')
  have hb := bound_of_not_raisesConstruction hraises
  cases i with
  | nop | tclr | encode => exact ⟨_, rfl, rfl⟩
  | rst => exact absurd rfl hrst
  | map x y =>
    by_cases h : x < 24 ∧ y < 5
    · exact ⟨_, exec_map_inside h s, exec_map_inside h _⟩
    · exact carriesSticky_of_raise (exec_map_outside h s) (exec_map_outside h _)
  | tpix x y v =>
    by_cases h : x < 24 ∧ y < 5
    · obtain ⟨u, hu, -⟩ := writePixel_inside s.tile (BitVec.ofNat 8 v) h.1 h.2
      exact ⟨_, exec_tpix_of_written hu, exec_tpix_of_written hu⟩
    · exact carriesSticky_of_raise (exec_tpix_outside v h s) (exec_tpix_outside v h _)
  | canvas w c =>
    obtain ⟨hw, hc⟩ := nonzero_of_not_raisesConstruction hraises
    refine ⟨_, exec_canvas_nonzero hw hc s, (exec_canvas_nonzero hw hc _).trans ?_⟩
    simp only [State.withSticky, State.respond, setStatusBit_or]
  | split =>
    have hb : s.bound = true := hb (by decide)
    exact ⟨_, exec_split_bound hb, exec_split_bound (hbound.trans hb)⟩
  | loadt t =>
    have hb : s.bound = true := hb (by simp [Instr.mnemonic])
    exact carriesSticky_of_finish (exec_loadt_bound hb) (exec_loadt_bound (hbound.trans hb))
      (loadTile_withSticky ..)
  | emit t b =>
    exact carriesSticky_of_finish (exec_emit t b s) (exec_emit t b _)
      (emitTile_withSticky m { s with tileIx := BitVec.ofNat 16 t } _ b)
  | render b clip =>
    have hb : s.bound = true := hb (by simp [Instr.mnemonic])
    exact carriesSticky_of_finish (exec_render_bound b clip hb) (exec_render_bound b clip (hbound.trans hb))
      (renderTiles_withSticky ..)
  | rdcr n =>
    have hn : n ≠ 0 := fun h => hrdcr (congrArg Instr.rdcr h)
    cases h : readControl s n with
    | some v => exact ⟨_, exec_rdcr_of_register h, exec_rdcr_of_register ((readControl_withSticky m s hn).trans h)⟩
    | none =>
      exact carriesSticky_of_raise (exec_rdcr_of_no_register h)
        (exec_rdcr_of_no_register ((readControl_withSticky m s hn).trans h))
  | rdtp x y => cases h : readPixel s.tile x y with
    | some p => exact ⟨_, exec_rdtp_of_pixel h, exec_rdtp_of_pixel h⟩
    | none => exact carriesSticky_of_raise (exec_rdtp_of_no_pixel h) (exec_rdtp_of_no_pixel h)
  | rdoo n => cases h : readOnOff s.onoff n with
    | some p => exact ⟨_, exec_rdoo_of_byte h, exec_rdoo_of_byte h⟩
    | none => exact carriesSticky_of_raise (exec_rdoo_of_no_byte h) (exec_rdoo_of_no_byte h)
  | rdpw n => cases h : readPwm s.pwm n with
    | some p => exact ⟨_, exec_rdpw_of_byte h, exec_rdpw_of_byte h⟩
    | none => exact carriesSticky_of_raise (exec_rdpw_of_no_byte h) (exec_rdpw_of_no_byte h)

end

end Sys2Proof.Machine

namespace Sys2Proof.Proofs.Exceptions

/-- Settles O5: a word of no row does not decode; an `RDCR` word decodes, and the encoder's word that its fault records
is the word itself. -/
theorem illegalWordSetsOnlyItsStickyBit : Obligations.IllegalWordSetsOnlyItsStickyBit := by
  rintro s w (hrow | ⟨hmask, hn⟩)
  · obtain ⟨e, he⟩ := decode_of_no_row hrow
    exact runWord_of_illegal he s
  · exact runWord_of_rdcr_reserved hmask hn s

/-- Settles O37: in R211's two cases the fault is raised with the command word, and outside them `exec_answersOther`
gives another response. -/
theorem constructionErrorCases : Obligations.ConstructionErrorCases := by
  refine ⟨fun s i => ?_, fun s i hunbound hi => exec_unbound hi hunbound⟩
  by_cases h : RaisesConstruction i s
  · exact ⟨_, _, exec_raisesConstruction h, raise_responses .., iff_of_true rfl h, fun _ => rfl⟩
  · obtain ⟨t, ht, r, hr, hcode⟩ := exec_answersOther h
    exact ⟨t, r, ht, hr, iff_of_false hcode h, fun hc => absurd hc hcode⟩

/-- Settles O41: `emitTile_first_fail` at the state that holds the new `TILE_IX`, which neither the calls nor the
answers depend on. -/
theorem emitStopsAtTheFirstFailingCall : Obligations.EmitStopsAtTheFirstFailingCall := by
  intro t b s m hm hok hfail
  have hcalls : (tileCalls { s with tileIx := BitVec.ofNat 16 t } (BitVec.ofNat 16 t) b).map Prod.snd =
      tileSends s (BitVec.ofNat 16 t) b s.onoff s.pwm := tileCalls_map_snd ..
  obtain ⟨kind, hkind, hemit⟩ := emitTile_first_fail hcalls hm hok hfail
  rw [exec_emit, hemit, finish_ended, failureData_eq_ofNat, hkind, State.sent, eventsUpTo_length hm, eventsUpTo,
    ← List.append_assoc]
  rfl

/-- Settles O19: `RST` clears the bits in both runs, `RDCR 0` shows them in its response alone, and every other command
carries them along. -/
theorem stickyBitsDoNotGateAnyCommand : Obligations.StickyBitsDoNotGateAnyCommand := by
  intro i s m hm
  by_cases hrst : i = .rst
  · subst hrst
    exact ⟨_, _, exec_rst s, exec_rst _, rfl, fun h => absurd rfl h, fun _ => rfl, rfl, fun _ => rfl⟩
  by_cases hrdcr : i = .rdcr 0
  · subst hrdcr
    exact ⟨_, _, exec_rdcr_of_register rfl, exec_rdcr_of_register rfl, bound_withSticky m s hm, fun _ => rfl, nofun,
      rfl, fun h => absurd rfl h⟩
  obtain ⟨t, ht, hu⟩ := exec_carriesSticky hm hrst hrdcr
  exact ⟨t, t.withSticky m, ht, hu, bound_withSticky m t hm, fun _ => rfl, fun h => absurd h hrst, rfl,
    fun _ => rfl⟩

/-- Settles O16: for each fault the bit that is set is the one with the number of its code. -/
theorem raiseSetsTheStickyBitAndResponds : Obligations.RaiseSetsTheStickyBitAndResponds := by
  intro s k data
  cases k with
  | constructionError | boundsViolation | transportFailure | illegalCommand => exact ⟨rfl, rfl⟩

end Sys2Proof.Proofs.Exceptions
end

