-- ==== Sys2Proof/Proofs/Other.lean ====
section
/-!
What joins the other parts: a word and its command both ways, the host's actions around a command, the faults of each
command's row, the mapper's inverse and the packer in closed form, and whole tiles: the slice of a canvas, the calls
that a tile costs, `RENDER` tile by tile. Settles the family `other`.
-/

open Sys2Proof Sys2Proof.Machine Sys2Proof.Format Sys2Proof.Spec

namespace Sys2Proof

/-! ## A word and its command -/

/-- R100: what the decoder gives for the encoder's word, command by command. -/
theorem decode_encode {i : Instr} (h : i.wellFormed = true) : decode (encode i) = .command i := by
  cases i with
  | nop => exact Laws.RoundTrip.nop h
  | rst => exact Laws.RoundTrip.rst h
  | map x y => exact Laws.RoundTrip.map x y h
  | tclr => exact Laws.RoundTrip.tclr h
  | tpix x y v => exact Laws.RoundTrip.tpix x y v h
  | encode => exact Laws.RoundTrip.encode h
  | canvas w c => exact Laws.RoundTrip.canvas w c h
  | split => exact Laws.RoundTrip.split h
  | loadt t => exact Laws.RoundTrip.loadt t h
  | emit t b => exact Laws.RoundTrip.emit t b h
  | render b clip => exact Laws.RoundTrip.render b clip h
  | rdcr n => exact Laws.RoundTrip.rdcr n h
  | rdtp x y => exact Laws.RoundTrip.rdtp x y h
  | rdoo n => exact Laws.RoundTrip.rdoo n h
  | rdpw n => exact Laws.RoundTrip.rdpw n h

/-- A word is assembled from its opcode and its bits 23:0. -/
theorem assemble_of_fields {w : Word} {opcode operands : Nat} (hop : field w 31 24 = opcode)
    (hoperands : field w 23 0 = operands) : assemble opcode operands = w := by
  have hw := w.isLt
  apply BitVec.eq_of_toNat_eq
  rw [assemble, BitVec.toNat_ofNat, ← hop, ← hoperands]
  simp only [field]
  omega

/-! Bits 23:0 of a word whose format's reserved bits are 0 are its operands at their places (R81 to R88). -/

section
variable {w : Word}

theorem operands_of_zeroZ (h : zeroZ w = true) : field w 23 0 = 0 := beq_iff_eq.mp h

theorem operands_of_zeroXY (h : zeroXY w = true) :
    field w 23 0 = field w 20 16 * 2 ^ 16 + field w 10 8 * 2 ^ 8 := by
  simp only [zeroXY, field, Bool.and_eq_true, beq_iff_eq] at *
  omega

theorem operands_of_zeroP (h : zeroP w = true) :
    field w 23 0 = field w 20 16 * 2 ^ 16 + field w 10 8 * 2 ^ 8 + field w 7 0 := by
  simp only [zeroP, field, Bool.and_eq_true, beq_iff_eq] at *
  omega

theorem operands_formatC (w : Word) : field w 23 0 = field w 23 8 * 2 ^ 8 + field w 7 0 := by
  simp only [field]
  omega

theorem operands_of_zeroT (h : zeroT w = true) : field w 23 0 = field w 15 0 := by
  simp only [zeroT, field, beq_iff_eq] at *
  omega

theorem operands_of_zeroB (h : zeroB w = true) :
    field w 23 0 = (field w 16 16 == 1).toNat * 2 ^ 16 + field w 15 0 := by
  have hbit : (field w 16 16 == 1).toNat = field w 16 16 := by
    have hlt : field w 16 16 < 2 := field_lt (by decide)
    obtain h0 | h1 : field w 16 16 = 0 ∨ field w 16 16 = 1 := by omega
    · rw [h0]; rfl
    · rw [h1]; rfl
  rw [hbit]
  simp only [zeroB, field, beq_iff_eq] at *
  omega

theorem operands_of_zeroI (h : zeroI w = true) : field w 23 0 = field w 7 0 := by
  simp only [zeroI, field, beq_iff_eq] at *
  omega

end

/-- R90: the encoder puts every field of a decoded word back at its place. -/
theorem encode_of_decode {w : Word} {i : Instr} (h : decode w = .command i) : encode i = w := by
  unfold decode at h
  split at h
  case h_7 hop =>
    obtain rfl := Decoded.command.inj h
    exact assemble_of_fields hop (operands_formatC w)
  case h_16 => cases h
  all_goals obtain ⟨hzero, rfl⟩ := ifReservedZero_eq_command.mp h
  case h_1 hop | h_2 hop | h_4 hop | h_6 hop | h_8 hop =>
    exact assemble_of_fields hop (operands_of_zeroZ hzero)
  case h_3 hop | h_13 hop => exact assemble_of_fields hop (operands_of_zeroXY hzero)
  case h_5 hop => exact assemble_of_fields hop (operands_of_zeroP hzero)
  case h_9 hop => exact assemble_of_fields hop (operands_of_zeroT hzero)
  case h_10 hop | h_11 hop => exact assemble_of_fields hop (operands_of_zeroB hzero)
  case h_12 hop | h_14 hop | h_15 hop => exact assemble_of_fields hop (operands_of_zeroI hzero)

end Sys2Proof

namespace Sys2Proof.Machine

/-! ## The host's actions -/

section
variable {s : State} {rest : List HostInput}

theorem step_of_reset (hinputs : s.inputs = .reset :: rest) : step s = .next (s.take rest []).resetTae := by
  simp only [step, hinputs]

/-- R242: the command is run on the state in which it is taken, and what it would have led to is cut. -/
theorem step_of_resetDuring {w : Word} {writes : List Host.Cell} (hinputs : s.inputs = .resetDuring w writes :: rest)
    (hwrites : ∀ c ∈ writes, c.1 < s.canvasLen) :
    step s = cutOutcome (s.take rest writes) (runWord w (s.take rest writes)) := by
  simp only [step, hinputs, (writable_iff s writes).mpr hwrites]

theorem step_of_writeCanvas {idx : Nat} {v : Byte} (hinputs : s.inputs = .writeCanvas idx v :: rest) :
    step s = hostWrite idx v (s.take rest []) := by
  simp only [step, hinputs]

theorem hostWrite_inside {idx : Nat} (v : Byte) (h : idx < s.canvasLen) :
    hostWrite idx v s = .next { s with canvas := s.canvas.write idx v } := by
  simp [hostWrite, State.writable, h]

theorem hostWrite_outside {idx : Nat} (v : Byte) (h : s.canvasLen ≤ idx) :
    hostWrite idx v s = .refused .canvasWriteOutside := by
  simp [hostWrite, State.writable, h]

theorem writable_eq_false {ws : List Host.Cell} (h : ∃ c ∈ ws, s.canvasLen ≤ c.1) : s.writable ws = false := by
  obtain ⟨c, hc, hout⟩ := h
  exact Bool.eq_false_iff.mpr fun hall => Nat.not_lt.mpr hout ((writable_iff s ws).mp hall c hc)

end

theorem cutTo_atResetValues (s t : State) : (s.cutTo t).AtResetValues := resetTae_atResetValues _

theorem State.AtResetValues.settle {s : State} (h : s.AtResetValues) : s.settle.AtResetValues :=
  ⟨h.status, h.canvasW, h.canvasH, h.tileCount, h.tileIx, h.tile, h.onoff, h.pwm⟩

/-- Whatever the word, the trace only grows (R59). -/
theorem runWord_trace {w : Word} {s t : State} (h : runWord w s = .next t) : ∃ es, t.trace = s.trace ++ es := by
  cases hdecode : decode w with
  | command i =>
    obtain ⟨es, htrace, -⟩ := (effect_of_exec ((runWord_of_command hdecode s).symm.trans h)).sends
    exact ⟨es, htrace⟩
  | illegal e =>
    obtain rfl := Host.Outcome.next.inj ((runWord_of_illegal hdecode s).symm.trans h)
    exact ⟨[], by simp⟩

/-- R242: a command that is cut has issued some first part of its calls. -/
theorem cutTo_trace_between {s t : State} {es : List TxEvent} (h : t.trace = s.trace ++ es) :
    s.trace <+: (s.cutTo t).trace ∧ (s.cutTo t).trace <+: t.trace := by
  rw [cutTo_trace, h, List.drop_left]
  exact ⟨List.prefix_append _ _, (List.prefix_append_right_inj _).mpr (List.take_prefix _ _)⟩

/-! ## Which faults a command can raise -/

/-- R215's table: the faults of each command's row. -/
def faultRow : Instr → List FaultKind
  | .nop | .rst | .tclr | .encode => []
  | .map _ _ | .tpix _ _ _ | .rdtp _ _ | .rdoo _ | .rdpw _ => [.boundsViolation]
  | .canvas _ _ | .split => [.constructionError]
  | .loadt _ => [.constructionError, .boundsViolation]
  | .emit _ _ => [.transportFailure]
  | .render _ _ => [.constructionError, .boundsViolation, .transportFailure]
  | .rdcr _ => [.illegalCommand]

/-- `t` has one response more than `s`, which is OK or one of the given faults. -/
def AnswersWithin (s t : State) (faults : List FaultKind) : Prop :=
  ∃ r, t.responses = s.responses ++ [r] ∧ (r.code = .ok ∨ ∃ k ∈ faults, r.code = .raised k)

section
variable {s u : State} {faults : List FaultKind}

theorem answersWithin_respond (h : u.responses = s.responses) (d : Word) :
    AnswersWithin s (u.respond .ok d) faults :=
  ⟨⟨.ok, d⟩, by rw [respond_responses, h], .inl rfl⟩

theorem answersWithin_raise {k : FaultKind} (hk : k ∈ faults) (h : u.responses = s.responses) (d : Word) :
    AnswersWithin s (u.raise k d) faults :=
  ⟨⟨.raised k, d⟩, by rw [raise_responses, h], .inr ⟨k, hk, rfl⟩⟩

theorem loadTile_answersWithin (hbounds : .boundsViolation ∈ faults) (t : Nat) (cmd d : Word) :
    AnswersWithin s ((loadTile t cmd s).finish d) faults := by
  unfold loadTile
  split
  · exact answersWithin_raise hbounds rfl _
  · split
    · exact answersWithin_respond rfl _
    · exact answersWithin_raise hbounds rfl _

theorem emitTile_answersWithin (htransport : .transportFailure ∈ faults) (t : BitVec 16) (b : Bool) (d : Word) :
    AnswersWithin s ((emitTile t b s).finish d) faults := by
  unfold emitTile
  split
  · exact answersWithin_respond rfl _
  · exact answersWithin_raise htransport rfl _

theorem renderTiles_answersWithin (hbounds : .boundsViolation ∈ faults) (htransport : .transportFailure ∈ faults)
    (cmd : Word) (b : Bool) (ts : List Nat) (d : Word) :
    AnswersWithin s ((renderTiles cmd b ts s).finish d) faults := by
  have hkept := renderTiles_kept cmd b ts s
  cases hwork : renderTiles cmd b ts s with
  | done u => exact answersWithin_respond (hwork ▸ hkept).responses d
  | ended k e u =>
    have hk : k ∈ faults := by
      obtain ⟨rfl, -⟩ | rfl := renderTiles_ended hwork
      · exact hbounds
      · exact htransport
    exact answersWithin_raise hk (hwork ▸ hkept).responses e

end

/-- R215: a command's response is OK or a fault of its row. -/
theorem exec_answersWithin (i : Instr) (s : State) :
    ∃ t, exec i s = .next t ∧ AnswersWithin s t (faultRow i) := by
  cases i with
  | nop | rst | tclr => exact ⟨_, rfl, answersWithin_respond rfl _⟩
  | encode => exact ⟨_, rfl, answersWithin_respond (encodeBuffers_responses s) _⟩
  | map | tpix | split | rdcr | rdtp | rdoo | rdpw =>
    refine ⟨_, rfl, ?_⟩
    split
    · exact answersWithin_respond rfl _
    · exact answersWithin_raise (by simp [faultRow]) rfl _
  | canvas w c =>
    refine ⟨_, rfl, ?_⟩
    split
    · exact answersWithin_raise (by simp [faultRow]) rfl _
    · exact answersWithin_respond rfl _
  | emit t b =>
    exact ⟨_, exec_emit t b s,
      emitTile_answersWithin (s := { s with tileIx := _ }) (by simp [faultRow]) _ _ _⟩
  | loadt t => cases hbound : s.bound with
    | false => exact ⟨_, exec_unbound (by simp [Instr.mnemonic]) hbound, answersWithin_raise (by simp [faultRow]) rfl _⟩
    | true => exact ⟨_, exec_loadt_bound hbound, loadTile_answersWithin (by simp [faultRow]) _ _ _⟩
  | render b clip => cases hbound : s.bound with
    | false => exact ⟨_, exec_unbound (by simp [Instr.mnemonic]) hbound, answersWithin_raise (by simp [faultRow]) rfl _⟩
    | true =>
      exact ⟨_, exec_render_bound b clip hbound,
        renderTiles_answersWithin (by simp [faultRow]) (by simp [faultRow]) _ _ _ _⟩

/-! ## What a command does to `STATUS` -/

/-- R23: a command keeps `STATUS` or sets a sticky bit, but for `CANVAS`, which can set `BOUND`, and `RST`. -/
theorem Effect.status_cases {i : Instr} {s t : State} (h : Effect i s t) :
    t.status = s.status ∨ (∃ k : FaultKind, t.status = setStatusBit s.status k.code) ∨
      (t.status = setStatusBit s.status 0 ∧ ∃ w c, i = .canvas w c ∧ w ≠ 0 ∧ c ≠ 0) ∨
      (t.status = 0#16 ∧ i = .rst) := by
  cases h with
  | reset hi => exact .inr (.inr (.inr ⟨rfl, hi⟩))
  | boundTo w c hi hw hc => exact .inr (.inr (.inl ⟨rfl, w, c, hi, hw, hc⟩))
  | faulted k | emitFailed => exact .inr (.inl ⟨_, rfl⟩)
  | renderFailed _ _ k _ u _ _ hu =>
    have hkept : Kept s u := kept_of_renderTiles (congrArg Work.state hu)
    exact .inr (.inl ⟨k, by rw [raise_status, hkept.status]⟩)
  | rendered _ _ u _ _ hu => exact .inl (kept_of_renderTiles (congrArg Work.state hu)).status
  | encoded => exact .inl (encodeBuffers_status s)
  | answered | tileWritten | loaded | emitted => exact .inl rfl

/-- Only `RST` clears a bit of `STATUS`. -/
theorem Effect.status_bit_stays {i : Instr} {s t : State} (h : Effect i s t) (hi : i ≠ .rst) {n : Nat}
    (hn : s.status.getLsbD n = true) : t.status.getLsbD n = true := by
  obtain hst | ⟨k, hst⟩ | ⟨hst, -⟩ | ⟨-, hrst⟩ := h.status_cases
  · rwa [hst]
  · rw [hst, setStatusBit_getLsbD _ _ _ (by have := k.code_range; omega), hn, Bool.true_or]
  · rw [hst, setStatusBit_getLsbD _ _ _ (by decide), hn, Bool.true_or]
  · exact absurd hrst hi

/-- Only a successful `CANVAS` sets `BOUND`: no sticky bit is bit 0. -/
theorem Effect.binds {i : Instr} {s t : State} (h : Effect i s t) (ht : t.bound = true) (hs : s.bound = false) :
    ∃ w c, i = .canvas w c ∧ w ≠ 0 ∧ c ≠ 0 := by
  simp only [State.bound] at ht hs
  obtain hst | ⟨k, hst⟩ | ⟨-, hcanvas⟩ | ⟨hst, -⟩ := h.status_cases
  · rw [hst, hs] at ht; cases ht
  · obtain ⟨hlow, hhigh⟩ := k.code_range
    rw [hst, setStatusBit_getLsbD _ _ _ (by omega), hs, decide_eq_false (by omega)] at ht
    cases ht
  · exact hcanvas
  · rw [hst, BitVec.getLsbD_zero] at ht; cases ht

/-! ## The inverse of the mapper -/

/-- R116: the LED of bit `j` of byte `r` of the bitmap. -/
def ledOfBit (r j : Nat) : Nat := r / 2 * 10 + r % 2 * 8 + j

theorem eq_ledOfBit (led : Nat) : led = ledOfBit (registerIndex led) (bitInByte led) := by
  simp only [ledOfBit, registerIndex, bitInByte, registerBit]
  omega

/-- R116: the LED of a mapped bit, one of an even byte or bit 0 or 1 of an odd byte, is mapped to that bit. -/
theorem mapped_ledOfBit {r j : Nat} (hj : j < 8) (hmapped : r % 2 = 0 ∨ j < 2) :
    registerIndex (ledOfBit r j) = r ∧ bitInByte (ledOfBit r j) = j := by
  have hdiv : ledOfBit r j / 10 = r / 2 := by rw [ledOfBit]; omega
  have hmod : ledOfBit r j % 10 = r % 2 * 8 + j := by rw [ledOfBit]; omega
  simp only [registerIndex, bitInByte, registerBit, hdiv, hmod]
  omega

theorem ledOfBit_lt {r j : Nat} (hr : r < 24) (hj : j < 8) (hmapped : r % 2 = 0 ∨ j < 2) : ledOfBit r j < 120 := by
  simp only [ledOfBit]
  omega

/-- R120: the bits 7:2 of an odd byte have no LED. -/
theorem mapped_bit_of_led {led r j : Nat} (hreg : registerIndex led = r) (hbit : bitInByte led = j) :
    r % 2 = 0 ∨ j < 2 := by
  obtain heven | hodd : r % 2 = 0 ∨ r = 2 * (r / 2) + 1 := by omega
  · exact .inl heven
  · exact .inr (hbit ▸ bitInByte_lt_two_of_odd (hreg.trans hodd))

theorem ledIndex_injective {x y x' y' : Nat} (hy : y < 5) (hy' : y' < 5) (h : ledIndex x y = ledIndex x' y') :
    x = x' ∧ y = y' := by
  simp only [ledIndex] at h
  omega

theorem pixel_of_led {led : Nat} (h : led < 120) : led / 5 < 24 ∧ led % 5 < 5 ∧ ledIndex (led / 5) (led % 5) = led := by
  simp only [ledIndex]
  omega

/-- R116: a pixel is the quotient and the remainder of its LED. -/
theorem ledIndex_div_mod {x y : Nat} (hy : y < 5) : ledIndex x y / 5 = x ∧ ledIndex x y % 5 = y := by
  simp only [ledIndex]
  omega

/-! ## `ENCODE` in closed form -/

/-- A part of a folded state that every step either sets to `a` or leaves: it is `a` once a step has set it. -/
theorem foldl_part {σ β α : Type} {f : σ → β → σ} {part : σ → α} {hits : β → Prop} [DecidablePred hits] {a : α}
    (hstep : ∀ out p, part (f out p) = if hits p then a else part out) (ps : List β) (out : σ) :
    part (ps.foldl f out) = if ∃ p ∈ ps, hits p then a else part out := by
  induction ps generalizing out with
  | nil => simp
  | cons p ps ih =>
    rw [List.foldl_cons, ih, hstep]
    by_cases hlater : ∃ q ∈ ps, hits q
    · simp [hlater]
    · by_cases hp : hits p
      · simp [hp]
      · simp [hlater, hp]

section
variable (t : Tile)

/-- A pixel of the tile is the one that the spec's closed forms name by its LED. -/
theorem readPixel_of_ledIndex (p : Fin 24 × Fin 5) {n : Nat} (h : ledIndex p.1 p.2 = n) :
    readPixel t (n / 5) (n % 5) = some (t[p.1][p.2]) := by
  obtain ⟨hx, hy⟩ := ledIndex_div_mod (x := p.1) p.2.2
  rw [← h, hx, hy]
  exact readPixel_inside t p.1.2 p.2.2

theorem lit_of_ledIndex (p : Fin 24 × Fin 5) {n : Nat} (h : ledIndex p.1 p.2 = n) :
    lit t n = decide (t[p.1][p.2] ≠ 0x00#8) := by
  rw [lit, readPixel_of_ledIndex t p h]
  exact Bool.eq_iff_iff.mpr (by simp)

/-- R114: a pixel sets the bit that it is mapped to, to whether it is on, and no other bit. -/
theorem packPixel_bit {r j : Nat} (hr : r < 24) (hj : j < 8) (out : OnOff × Pwm) (p : Fin 24 × Fin 5) :
    ((packPixel t out p).1[r]).getLsbD j =
      if registerIndex (ledIndex p.1 p.2) = r ∧ bitInByte (ledIndex p.1 p.2) = j then lit t (ledOfBit r j)
      else (out.1[r]).getLsbD j := by
  refine (updateOnOff_getLsbD out.1 _ (ledIndex_lt p.1.2 p.2.2) hr hj).trans ?_
  by_cases hits : registerIndex (ledIndex p.1 p.2) = r ∧ bitInByte (ledIndex p.1 p.2) = j
  · obtain ⟨rfl, rfl⟩ := hits
    rw [if_pos ⟨rfl, rfl⟩, if_pos ⟨rfl, rfl⟩, ← eq_ledOfBit, lit_of_ledIndex t p rfl]
  · rw [if_neg hits, if_neg fun h => hits ⟨h.1.symm, h.2.symm⟩]

/-- R115: a pixel's brightness goes to the slot of its LED. -/
theorem packPixel_slot {i : Nat} (hi : i < 131) (out : OnOff × Pwm) (p : Fin 24 × Fin 5) :
    readPwm (packPixel t out p).2 i =
      if ledIndex p.1 p.2 = i then readPixel t (i / 5) (i % 5) else readPwm out.2 i := by
  rw [readPwm_inside _ hi, readPwm_inside _ hi]
  refine (congrArg some (setPwm_getElem out.2 _ hi)).trans ?_
  rw [pwmSlot]
  by_cases hits : ledIndex p.1 p.2 = i
  · rw [if_pos hits, if_pos hits.symm, readPixel_of_ledIndex t p hits]
  · rw [if_neg hits, if_neg (Ne.symm hits)]

variable {ps : List (Fin 24 × Fin 5)}

theorem exists_pixel_of_led (hall : ∀ p, p ∈ ps) {n : Nat} (hn : n < 120) : ∃ p ∈ ps, ledIndex p.1 p.2 = n := by
  obtain ⟨hx, hy, hled⟩ := pixel_of_led hn
  exact ⟨(⟨n / 5, hx⟩, ⟨n % 5, hy⟩), hall _, hled⟩

/-- R133, R134: the bitmap after visiting every pixel, in whatever order. A bit that no pixel maps to is 0. -/
theorem packed_bit (hall : ∀ p, p ∈ ps) {r j : Nat} (hr : r < 24) (hj : j < 8) :
    ((ps.foldl (packPixel t) (blankOnOff, blankPwm)).1[r]).getLsbD j =
      if r % 2 = 0 ∨ j < 2 then lit t (ledOfBit r j) else false := by
  have hfold := foldl_part (part := fun out => (out.1[r]).getLsbD j) (packPixel_bit t hr hj) ps (blankOnOff, blankPwm)
  have hiff : (∃ p ∈ ps, registerIndex (ledIndex p.1 p.2) = r ∧ bitInByte (ledIndex p.1 p.2) = j) ↔
      (r % 2 = 0 ∨ j < 2) := by
    constructor
    · rintro ⟨p, -, hreg, hbit⟩
      exact mapped_bit_of_led hreg hbit
    · intro hmapped
      obtain ⟨p, hp, hled⟩ := exists_pixel_of_led hall (ledOfBit_lt hr hj hmapped)
      exact ⟨p, hp, hled ▸ mapped_ledOfBit hj hmapped⟩
  simpa [hiff, blankOnOff] using hfold

/-- R135, R136: the brightness table after visiting every pixel, in whatever order. -/
theorem packed_slot (hall : ∀ p, p ∈ ps) {i : Nat} (hi : i < 131) :
    readPwm (ps.foldl (packPixel t) (blankOnOff, blankPwm)).2 i =
      if i < 120 then readPixel t (i / 5) (i % 5) else some 0x00#8 := by
  have hfold := foldl_part (part := fun out => readPwm out.2 i) (packPixel_slot t hi) ps (blankOnOff, blankPwm)
  have hiff : (∃ p ∈ ps, ledIndex p.1 p.2 = i) ↔ i < 120 := by
    constructor
    · rintro ⟨p, -, rfl⟩
      exact ledIndex_lt p.1.2 p.2.2
    · exact exists_pixel_of_led hall
  simpa [hiff, readPwm_blank hi] using hfold

/-- R137: the order in which the pixels are visited does not matter, as long as each one is. -/
theorem foldl_packPixel_of_complete (hall : ∀ p, p ∈ ps) :
    ps.foldl (packPixel t) (blankOnOff, blankPwm) = encodeTile t := by
  refine Prod.ext (Vector.ext fun r hr => BitVec.eq_of_getLsbD_eq fun j hj => ?_) (Vector.ext fun i hi => ?_)
  · exact (packed_bit t hall hr hj).trans (packed_bit t mem_tilePixels hr hj).symm
  · have hslot := (packed_slot t hall hi).trans (packed_slot t mem_tilePixels hi).symm
    rw [readPwm_inside _ hi, readPwm_inside _ hi] at hslot
    exact Option.some.inj hslot

theorem encodeTile_bit {r j : Nat} (hr : r < 24) (hj : j < 8) :
    ((encodeTile t).1[r]).getLsbD j = if r % 2 = 0 ∨ j < 2 then lit t (ledOfBit r j) else false :=
  packed_bit t mem_tilePixels hr hj

theorem encodeTile_slot {i : Nat} (hi : i < 131) :
    readPwm (encodeTile t).2 i = if i < 120 then readPixel t (i / 5) (i % 5) else some 0x00#8 :=
  packed_slot t mem_tilePixels hi

theorem encodeTile_slot_pixel {n : Nat} (hn : n < 120) :
    readPwm (encodeTile t).2 n = readPixel t (n / 5) (n % 5) := by
  rw [encodeTile_slot t (by omega), if_pos hn]

theorem encodeTile_slot_filler {n : Nat} (hlow : 120 ≤ n) (hn : n < 131) :
    readPwm (encodeTile t).2 n = some 0x00#8 := by
  rw [encodeTile_slot t hn, if_neg (by omega)]

/-- A tile whose pixels are all on, or all off, gives bytes with its mapped bits all 1, or all 0. -/
theorem encodeTile_byte_of_uniform {on : Bool} (h : ∀ n < 120, lit t n = on) {r : Nat} (hr : r < 24) {v : Byte}
    (hv : ∀ j < 8, v.getLsbD j = if r % 2 = 0 ∨ j < 2 then on else false) :
    readOnOff (encodeTile t).1 r = some v := by
  rw [readOnOff_inside _ hr, Option.some.injEq]
  refine BitVec.eq_of_getLsbD_eq fun j hj => ?_
  rw [encodeTile_bit t hr hj, hv j hj]
  split
  · next hmapped => exact h _ (ledOfBit_lt hr hj hmapped)
  · rfl

end

theorem exec_encode (s : State) : exec .encode s = .next (s.encodeBuffers.respond .ok 0) := rfl

/-- An all-off tile has no lit LED. -/
theorem lit_eq_false {t : Tile} (h : ∀ x < 24, ∀ y < 5, readPixel t x y = some 0x00#8) {n : Nat} (hn : n < 120) :
    lit t n = false := by
  obtain ⟨hx, hy, -⟩ := pixel_of_led hn
  rw [lit, h _ hx _ hy]
  rfl

/-- A tile with every pixel nonzero has every LED lit. -/
theorem lit_eq_true {t : Tile} (h : ∀ x < 24, ∀ y < 5, readPixel t x y ≠ some 0x00#8) {n : Nat} (hn : n < 120) :
    lit t n = true := by
  obtain ⟨hx, hy, -⟩ := pixel_of_led hn
  have hpixel := h _ hx _ hy
  rw [readPixel_inside t hx hy] at hpixel
  rw [lit, readPixel_inside t hx hy]
  exact bne_iff_ne.mpr fun h0 => hpixel (congrArg some h0)

/-! ## Control registers -/

/-- R88 for `RDCR`: the operand stands in the word of format I. -/
theorem decode_wordI_rdcr {n : Nat} (hn : n < 256) : decode (wordI 0x50#8 n) = .command (.rdcr n) := by
  rw [← encode_rdcr hn]
  exact Laws.RoundTrip.rdcr n (by simp [Instr.wellFormed, hn])

/-! ## The slice of a canvas that nothing races with -/

theorem readPixel_canvasSlice (s : State) (t : Nat) {x y : Nat} (hx : x < 24) (hy : y < 5) :
    readPixel (canvasSlice s t) x y = some
      (if y < s.canvasH.toNat then s.canvas.read (24 * t + x + y * s.canvasW.toNat) else 0x00#8) := by
  rw [readPixel_inside _ hx hy]
  simp [canvasSlice]

/-- No host write races, the canvas fits the tile, and the memory holds the canvas bytes of the tiles below `n`. -/
structure TilesReady (s : State) (n : Nat) : Prop where
  quiet : s.racing = []
  height : s.canvasH.toNat ≤ 5
  inside : ∀ t < n, ∀ x < 24, ∀ y < s.canvasH.toNat, 24 * t + x + y * s.canvasW.toNat < s.canvasLen

theorem TilesReady.mono {s : State} {m n : Nat} (h : TilesReady s n) (hm : m ≤ n) : TilesReady s m :=
  ⟨h.quiet, h.height, fun t ht => h.inside t (ht.trans_le hm)⟩

/-- R158: a pixel of a tile lies in its row of the canvas, and so inside the canvas. -/
theorem sliceIndex_lt_of_tile {w c t x y : Nat} (ht : t < w / 24) (hx : x < 24) (hy : y < c) :
    24 * t + x + y * w < w * c := by
  have hrow : 24 * t + x < w := by omega
  calc 24 * t + x + y * w < w + y * w := Nat.add_lt_add_right hrow _
    _ = w * (y + 1) := by ring
    _ ≤ w * c := Nat.mul_le_mul_left w hy

theorem tilesReady_of_canvasReady {s : State} (h : CanvasReady s) : TilesReady s (s.canvasW.toNat / 24) :=
  ⟨h.quiet, h.height, fun _ ht _ hx _ hy => (sliceIndex_lt_of_tile ht hx hy).trans_le h.sized⟩

/-- R158: the slice of a readable tile is the canvas's. -/
theorem loadSlice_eq_canvasSlice {s : State} {t n : Nat} (h : TilesReady s n) (ht : t < n) :
    loadSlice s t = some (canvasSlice s t) := by
  obtain ⟨u, hu⟩ := Option.isSome_iff_exists.mp
    ((loadSlice_isSome_iff_inside t).mpr ⟨h.height, fun x hx y _ hyH => h.inside t ht x hx y hyH⟩)
  obtain ⟨-, -, hpixels⟩ := loadSlice_eq_some hu
  refine hu.trans (congrArg some (tile_ext fun x hx y hy => ?_))
  rw [hpixels x hx y hy, readPixel_canvasSlice s t hx hy, sliceByte]
  split
  · next hyH => rw [canvasRead_noRace h.quiet, sliceIndex, if_pos (h.inside t ht x hx y hyH)]
  · rfl

/-- The slice is read from the canvas and its dimensions alone. -/
theorem loadSlice_congr {s q : State} {t : Nat} (hheight : q.canvasH = s.canvasH)
    (hbyte : sliceByte q t = sliceByte s t) : loadSlice q t = loadSlice s t := by
  simp only [loadSlice, sliceTile, hheight, hbyte]

/-! ## What a tile costs -/

theorem filter_regCalls (ws : List RegWrite) : (regCalls ws).filter isRegCall = regCalls ws :=
  List.filter_eq_self.mpr fun c hc => by
    obtain ⟨r, -, rfl⟩ := List.mem_map.mp hc
    rfl

theorem filter_slotCalls (bytes : List Byte) : (slotCalls bytes).filter isRegCall = [] :=
  List.filter_eq_nil_iff.mpr fun c hc => by
    obtain ⟨i, hi, rfl⟩ := List.mem_mapIdx.mp hc
    exact Bool.false_ne_true

theorem regCalls_length (ws : List RegWrite) : (regCalls ws).length = ws.length := List.length_map ..

theorem slotCalls_length (bytes : List Byte) : (slotCalls bytes).length = bytes.length := List.length_mapIdx

theorem brightness_length (b : Bool) (pwm : Pwm) : (brightness b pwm).length = 131 :=
  tableBytes_length { State.reset with pwm := pwm } b .pwm

/-- The number of `PRE` writes of a tile's three tables. -/
def preCount (s : State) (t : BitVec 16) : Nat :=
  (preWrites s .onoff t).length + (preWrites s .blink t).length + (preWrites s .pwm t).length

section
variable (s : State) (t : BitVec 16) (b : Bool) (onoff : OnOff) (pwm : Pwm)

theorem tileSends_length : (tileSends s t b onoff pwm).length = preCount s t + 179 := by
  simp only [tileSends, List.length_append, regCalls_length, slotCalls_length, brightness_length,
    List.length_replicate, Vector.length_toList, preCount]
  omega

/-- R175: the `TxReg` calls of a tile are those of its `PRE` lists. -/
theorem tileSends_regCalls : ((tileSends s t b onoff pwm).filter isRegCall).length = preCount s t := by
  simp only [tileSends, List.filter_append, filter_regCalls, filter_slotCalls, List.length_append, regCalls_length,
    List.length_nil, preCount, Nat.add_zero]

/-- R175: the other calls of a tile are its 24 + 24 + 131 slot writes. -/
theorem tileSends_slotCalls : ((tileSends s t b onoff pwm).filter fun c => !isRegCall c).length = 179 := by
  have hall := List.length_eq_length_filter_add (l := tileSends s t b onoff pwm) isRegCall
  rw [tileSends_length, tileSends_regCalls] at hall
  omega

end

/-- Counting calls by their kind, in a list of events that answered them `ok`. -/
theorem filter_answeredOk (p : TxCall → Bool) (calls : List TxCall) :
    ((answeredOk calls).filter fun e => p e.call).length = (calls.filter p).length := by
  rw [answeredOk, List.filter_map, List.length_map]
  rfl

/-! ## Calls after calls -/

theorem sent_sent (s : State) (es fs : List TxEvent) : (s.sent es).sent fs = s.sent (es ++ fs) := by
  simp [State.sent]

/-- The answers go on where the calls already issued have left off. -/
theorem answerAt_sent (s : State) (es : List TxEvent) (m : Nat) :
    answerAt (s.sent es) m = answerAt s (es.length + m) := by
  simp [answerAt, State.sent, Nat.add_assoc]

theorem answeredOk_length (calls : List TxCall) : (answeredOk calls).length = calls.length := List.length_map ..

theorem answeredOk_append (calls more : List TxCall) :
    answeredOk (calls ++ more) = answeredOk calls ++ answeredOk more := List.map_append ..

theorem rendersBefore_succ (s : State) (b : Bool) (n : Nat) :
    rendersBefore s b (n + 1) = rendersBefore s b n ++ renderSends s b n := by
  simp [rendersBefore, List.range_succ]

/-! ## `RENDER` tile by tile -/

/-- `s` with the last of the tiles below `n` in the scratch tile and in the buffers (R176). -/
def State.buffered (s : State) : Nat → State
  | 0 => s
  | n + 1 => { s with tileIx := BitVec.ofNat 16 n, tile := canvasSlice s n }.encodeBuffers

/-- `s` when `RENDER` has sent the tiles below `n`, every call answered `ok`. -/
def State.rendered (s : State) (b : Bool) (n : Nat) : State :=
  (s.buffered n).sent (answeredOk (rendersBefore s b n))

/-- The next tile in the buffers, its calls still to be issued. -/
def State.sending (s : State) (b : Bool) (n : Nat) : State :=
  (s.buffered (n + 1)).sent (answeredOk (rendersBefore s b n))

section
variable (s : State) (b : Bool) (n : Nat)

theorem rendered_zero : s.rendered b 0 = s := by
  simp [State.rendered, State.buffered, rendersBefore, answeredOk, State.sent]

theorem answerAt_buffered : answerAt (s.buffered n) = answerAt s := by
  cases n <;> rfl

theorem answerAt_sending (m : Nat) : answerAt (s.sending b n) m = answerAt s ((rendersBefore s b n).length + m) := by
  rw [State.sending, answerAt_sent, answeredOk_length, answerAt_buffered]

/-- Loading and encoding a tile overwrites what the tile before it left. -/
theorem encodeBuffers_rendered :
    { s.rendered b n with tileIx := BitVec.ofNat 16 n, tile := canvasSlice s n }.encodeBuffers = s.sending b n := by
  cases n <;> rfl

theorem loadSlice_rendered (t : Nat) : loadSlice (s.rendered b n) t = loadSlice s t := by
  cases n with
  | zero => exact loadSlice_congr rfl rfl
  | succ n => exact loadSlice_congr rfl rfl

/-- R63: what a tile sends is the encoding of its slice, whatever was sent before. -/
theorem tileCalls_sending :
    (tileCalls (s.sending b n) (BitVec.ofNat 16 n) b).map Prod.snd = renderSends s b n :=
  tileCalls_map_snd ..

end

section
variable {s : State} {b : Bool} {n k m : Nat} {cmd : Word}

theorem emitTile_sending (hok : ∀ j < (rendersBefore s b (n + 1)).length, answerAt s j = .ok) :
    emitTile (BitVec.ofNat 16 n) b (s.sending b n) = .done (s.rendered b (n + 1)) := by
  have hrest : ∀ j < (renderSends s b n).length, answerAt (s.sending b n) j = .ok := fun j hj => by
    rw [answerAt_sending]
    exact hok _ (by rw [rendersBefore_succ, List.length_append]; omega)
  refine (emitTile_all_ok (s.sending b n) (BitVec.ofNat 16 n) b hrest).trans (congrArg Work.done ?_)
  rw [State.rendered, rendersBefore_succ, answeredOk_append, ← sent_sent]
  rfl

/-- A readable tile's turn is the emission of its encoded slice. -/
theorem renderTile_rendered (h : loadSlice s n = some (canvasSlice s n)) :
    renderTile cmd b n (s.rendered b n) = emitTile (BitVec.ofNat 16 n) b (s.sending b n) := by
  simp only [renderTile, loadSlice_rendered, h, encodeBuffers_rendered]

theorem renderTiles_append {ts us : List Nat} {q r : State} (h : renderTiles cmd b ts q = .done r) :
    renderTiles cmd b (ts ++ us) q = renderTiles cmd b us r := by
  induction ts generalizing q with
  | nil => exact congrArg _ (Work.done.inj h)
  | cons t ts ih =>
    simp only [List.cons_append, renderTiles] at h ⊢
    cases hturn : renderTile cmd b t q with
    | done q' => rw [hturn] at h; exact ih h
    | ended k d q' => rw [hturn] at h; cases h

/-- R176: the tiles below `n` are sent in turn, as long as they can be read and their calls are answered `ok`. -/
theorem renderTiles_range (hready : TilesReady s n) (hok : ∀ j < (rendersBefore s b n).length, answerAt s j = .ok) :
    renderTiles cmd b (List.range n) s = .done (s.rendered b n) := by
  induction n with
  | zero => rw [rendered_zero]; rfl
  | succ n ih =>
    have hbefore := ih (hready.mono n.le_succ) fun j hj =>
      hok j (by rw [rendersBefore_succ, List.length_append]; omega)
    rw [List.range_succ, renderTiles_append hbefore]
    simp only [renderTiles, renderTile_rendered (loadSlice_eq_canvasSlice hready n.lt_succ_self), emitTile_sending hok]

/-- The loop up to tile `k`, tile `k`, and the rest. -/
theorem range_eq_append_cons (h : k < n) : ∃ rest, List.range n = List.range k ++ k :: rest := by
  obtain ⟨r, rfl⟩ : ∃ r, n = k + (r + 1) := ⟨n - k - 1, by omega⟩
  exact ⟨_, by rw [List.range_add, List.range_succ_eq_map, List.map_cons, Nat.add_zero]⟩

/-- A tile whose turn is ended ends the loop: no later tile is looked at (R176). -/
theorem renderTiles_ends {q u : State} {f : FaultKind} {d : Word} (hk : k < n)
    (hbefore : renderTiles cmd b (List.range k) s = .done q) (hturn : renderTile cmd b k q = .ended f d u) :
    renderTiles cmd b (List.range n) s = .ended f d u := by
  obtain ⟨rest, hrange⟩ := range_eq_append_cons hk
  rw [hrange, renderTiles_append hbefore]
  simp only [renderTiles, hturn]

theorem renderTile_unreadable {q : State} (h : loadSlice q k = none) :
    renderTile cmd b k q = .ended .boundsViolation cmd { q with tileIx := BitVec.ofNat 16 k } := by
  simp only [renderTile, h]

/-- R174: a tile's first failing call ends its turn, the earlier tiles sent in full. -/
theorem renderTile_first_fail (hload : loadSlice s k = some (canvasSlice s k)) (hm : m < (renderSends s b k).length)
    (hok : ∀ j < (rendersBefore s b k).length + m, answerAt s j = .ok)
    (hfail : answerAt s ((rendersBefore s b k).length + m) = .fail) :
    renderTile cmd b k (s.rendered b k) = .ended .transportFailure
      (BitVec.ofNat 32 (2 ^ 16 * sendKind s (BitVec.ofNat 16 k) m + k % 2 ^ 16))
      ((s.buffered (k + 1)).sent (answeredOk (rendersBefore s b k) ++ eventsUpTo (renderSends s b k) m)) := by
  obtain ⟨kind, hkind, hemit⟩ := emitTile_first_fail (tileCalls_sending s b k) hm
    (fun j hj => (answerAt_sending s b k j).trans (hok _ (by omega))) ((answerAt_sending s b k m).trans hfail)
  have hnumber : kindNumber kind = sendKind s (BitVec.ofNat 16 k) m := hkind
  rw [renderTile_rendered hload, hemit, failureData_eq_ofNat, hnumber, State.sending, sent_sent]

end

/-! ## `LOADT`, `ENCODE`, `EMIT` tile by tile -/

/-- The state with other responses on the port. -/
def State.withResponses (rs : List Response) (s : State) : State := { s with responses := rs }

/-- The state with the responses of a `LOADT n` and an `ENCODE` on the port. -/
def State.loadAndEncodeAnswered (n : Nat) (s : State) : State :=
  (s.respond .ok (BitVec.ofNat 32 (24 * n))).respond .ok 0

theorem TilesReady.withResponses {s : State} {n : Nat} (h : TilesReady s n) (rs : List Response) :
    TilesReady (s.withResponses rs) n := ⟨h.quiet, h.height, h.inside⟩

theorem rendered_bound (s : State) (b : Bool) (n : Nat) : (s.rendered b n).bound = s.bound := by cases n <;> rfl

theorem rendered_canvasW (s : State) (b : Bool) (n : Nat) : (s.rendered b n).canvasW = s.canvasW := by
  cases n <;> rfl

section
variable {s : State} {b : Bool} {n : Nat}

/-- `LOADT` of the next tile leaves it in the scratch tile, ready to be encoded. -/
theorem exec_loadt_rendered (hbound : s.bound = true) (hn : n < tileCount s.canvasW)
    (hload : loadSlice s n = some (canvasSlice s n)) :
    ∃ q, exec (.loadt n) (s.rendered b n) = .next q ∧
      q.encodeBuffers = (s.respond .ok (BitVec.ofNat 32 (24 * n))).sending b n := by
  refine ⟨_, exec_loadt_of_loadSlice ((rendered_bound s b n).trans hbound) ?_
    ((loadSlice_rendered s b n n).trans hload), ?_⟩
  · rwa [rendered_canvasW]
  · cases n <;> rfl

/-- `EMIT` sets `TILE_IX` to the tile that is in the buffers. -/
theorem exec_emit_sending (hok : ∀ j < (rendersBefore s b (n + 1)).length, answerAt s j = .ok) :
    exec (.emit n b) (s.sending b n) = .next ((s.rendered b (n + 1)).respond .ok 0) := by
  refine (exec_emit n b _).trans ?_
  have htileIx : { s.sending b n with tileIx := BitVec.ofNat 16 n } = s.sending b n := rfl
  rw [htileIx, emitTile_sending hok, finish_done]

/-- One `RTILE` of a readable tile does what `RENDER` does for it, and answers three times (R101). -/
theorem tileByTile_turn (hbound : s.bound = true) (hn : n < tileCount s.canvasW) (hready : TilesReady s (n + 1))
    (hok : ∀ j < (rendersBefore s b (n + 1)).length, answerAt s j = .ok) :
    ∃ rs, ∀ ts, tileByTile b (n :: ts) (s.rendered b n) =
      tileByTile b ts ((s.withResponses rs).rendered b (n + 1)) := by
  obtain ⟨q, hloadt, hq⟩ := exec_loadt_rendered (b := b) hbound hn (loadSlice_eq_canvasSlice hready n.lt_succ_self)
  have hencode : exec .encode q = .next ((s.loadAndEncodeAnswered n).sending b n) := by
    rw [exec_encode, hq]
    rfl
  have hemit := exec_emit_sending (s := s.loadAndEncodeAnswered n) hok
  refine ⟨((s.loadAndEncodeAnswered n).respond .ok 0).responses, fun ts => ?_⟩
  simp only [tileByTile, hloadt, hencode, hemit]
  rfl

/-- R101: the tiles below `n`, loaded, encoded and emitted one by one, are what `RENDER` makes of them, but for the
responses. -/
theorem tileByTile_range (hbound : s.bound = true) (hn : n ≤ tileCount s.canvasW) (hready : TilesReady s n)
    (hok : ∀ j < (rendersBefore s b n).length, answerAt s j = .ok) :
    ∃ rs, ∀ ts, tileByTile b (List.range n ++ ts) s = tileByTile b ts ((s.withResponses rs).rendered b n) := by
  induction n with
  | zero => exact ⟨s.responses, fun ts => by rw [rendered_zero]; rfl⟩
  | succ n ih =>
    obtain ⟨rs, hbefore⟩ := ih (by omega) (hready.mono n.le_succ) fun j hj =>
      hok j (by rw [rendersBefore_succ, List.length_append]; omega)
    obtain ⟨rs', hturn⟩ := tileByTile_turn (s := s.withResponses rs) hbound hn (hready.withResponses rs) hok
    refine ⟨rs', fun ts => ?_⟩
    rw [List.range_succ, List.append_assoc, List.singleton_append, hbefore]
    exact hturn ts

end

/-- R88 for `RENDER`: the operands stand in the word of format B. -/
theorem decode_wordB_render (b : Bool) {clip : Nat} (hclip : clip < 65536) :
    decode (wordB 0x41#8 b clip) = .command (.render b clip) := by
  rw [← encode_render b hclip]
  exact Laws.RoundTrip.render b clip (by simp [Instr.wellFormed, hclip])

end Sys2Proof.Machine

namespace Sys2Proof.Proofs.Other

/-- Settles O1: each command's round trip is a lemma of its own, `Laws.RoundTrip`. -/
theorem decodeOfEncodeGivesTheCommand : Obligations.DecodeOfEncodeGivesTheCommand :=
  fun _ => decode_encode

/-- Settles O2: with its reserved bits 0, a word is its opcode and its operands. -/
theorem encodeOfADecodedWordGivesTheWord : Obligations.EncodeOfADecodedWordGivesTheWord :=
  fun _ _ h => ⟨encode_of_decode h, wellFormed_of_decode h⟩

/-- Settles O10: both are `resetTae` of the state in which the host's action is taken. -/
theorem resetInputIsRstWithoutAResponse : Obligations.ResetInputIsRstWithoutAResponse := by
  intro s rest hinputs
  exact ⟨_, _, step_of_reset hinputs, resetTae_atResetValues _, exec_rst _, rfl, rfl⟩

/-- Settles O11: the trace of the full command is the old trace and its own events, of which `cutTo` keeps a first
part; the rest of the state is reset or the environment's. -/
theorem resetInsideACommandCutsTheTrace : Obligations.ResetInsideACommandCutsTheTrace := by
  intro s w writes rest hinputs hwrites
  obtain ⟨full, hfull, -⟩ := runWord_next w (s.take rest writes)
  obtain ⟨es, htrace⟩ := runWord_trace hfull
  obtain ⟨hold, hcut⟩ := cutTo_trace_between htrace
  refine ⟨((s.take rest writes).cutTo full).settle, full, hfull, ?_, (cutTo_atResetValues _ _).settle, rfl, hold, hcut,
    rfl, rfl, rfl, rfl, rfl⟩
  rw [step_of_resetDuring hinputs hwrites, hfull, cutOutcome]

/-- Settles O12: a read with nothing racing sees the byte held, and `Memory.read_write` says which that is. -/
theorem hostWriteIsSeenByCanvasReads : Obligations.HostWriteIsSeenByCanvasReads := by
  intro s idx v rest hinputs hidx hwf
  refine ⟨{ s.take rest [] with canvas := s.canvas.write idx v }, ?_, Memory.write_wf hwf idx v, fun j => ?_, rfl⟩
  · exact (step_of_writeCanvas hinputs).trans (hostWrite_inside v hidx)
  · rw [canvasRead_noRace rfl, Memory.read_write hwf]
    by_cases hj : j = idx
    · subst hj
      simp [hidx]
    · simp [hj]

/-- Settles O13: the three actions with writes are the ones that `step` checks. -/
theorem hostWriteOutsideTheCanvasIsRefused : Obligations.HostWriteOutsideTheCanvasIsRefused := by
  refine ⟨fun s idx v rest hinputs hout => ?_, fun s w writes rest hinputs hout => ?_⟩
  · exact (step_of_writeCanvas hinputs).trans (hostWrite_outside v hout)
  · rcases hinputs with hinputs | hinputs
    · simp only [step, hinputs, writable_eq_false hout]
    · simp only [step, hinputs, writable_eq_false hout]

/-- Settles O17: `faultRow` is R215's table, and `exec_answersWithin` holds every command to its row. -/
theorem eachCommandRaisesOnlyItsFaults : Obligations.EachCommandRaisesOnlyItsFaults := by
  intro i s
  obtain ⟨t, ht, r, hr, hcode⟩ := exec_answersWithin i s
  refine ⟨t, r, ht, hr, ?_⟩
  cases i <;> simpa [faultRow] using hcode

/-- Settles O18: a sticky bit is a bit of `STATUS`, and only `RST` clears one. -/
theorem stickyBitsStaySetUntilRst : Obligations.StickyBitsStaySetUntilRst :=
  fun _ _ _ _ hi hsticky hexec => (effect_of_exec hexec).status_bit_stays hi hsticky

/-- Settles O20: `BOUND` is set only where `CANVAS` sets it, and cleared only as every bit of `STATUS` is. -/
theorem boundChangesOnlyByCanvasAndRst : Obligations.BoundChangesOnlyByCanvasAndRst := by
  intro i s t hexec
  have heffect : Effect i s t := effect_of_exec hexec
  refine ⟨heffect.binds, fun ht hs => ?_⟩
  by_contra hi
  exact absurd ((heffect.status_bit_stays hi hs).symm.trans ht) (by decide)

/-- Settles O4: a closed fact about twelve words. -/
theorem vectorWordsDecodeToTheirCommands : Obligations.VectorWordsDecodeToTheirCommands := by
  unfold Obligations.VectorWordsDecodeToTheirCommands
  decide

/-- Settles O27: `ledOfBit` gives the LED back from its bit, and an LED gives its pixel back. -/
theorem mapperIsInjective : Obligations.MapperIsInjective := by
  refine ⟨fun x _ y hy x' _ y' hy' h => ?_, fun r hr j hj => ⟨?_, fun hmapped => ?_⟩⟩
  · refine ledIndex_injective hy hy' ?_
    obtain ⟨hreg, hbit⟩ | hslot := h
    · rw [eq_ledOfBit (ledIndex x y), eq_ledOfBit (ledIndex x' y'), hreg, hbit]
    · exact hslot
  · rintro ⟨x, -, y, -, hreg, hbit⟩
    exact mapped_bit_of_led hreg hbit
  · obtain ⟨hx, hy, hled⟩ := pixel_of_led (ledOfBit_lt hr hj hmapped)
    exact ⟨_, hx, _, hy, hled.symm ▸ mapped_ledOfBit hj hmapped⟩

/-- Settles O28: `ledOfBit` is the spec's inverse, on every mapped bit. -/
theorem mapperInverse : Obligations.MapperInverse := by
  refine ⟨fun _ => pixel_of_led, fun _ _ _ hy => ledIndex_div_mod hy, fun r _ j hj hmapped led _ => ⟨?_, ?_⟩⟩
  · rintro ⟨rfl, rfl⟩
    exact eq_ledOfBit led
  · rintro rfl
    exact mapped_ledOfBit hj (by omega)

/-- Settles O31: `encodeTile_bit` at the even byte, the low bits of the odd byte, and its unmapped bits. -/
theorem encodeOnOffInClosedForm : Obligations.EncodeOnOffInClosedForm := by
  refine fun s => ⟨_, exec_encode s, fun k hk => ?_⟩
  have heven : 2 * k < 24 := by omega
  have hodd : 2 * k + 1 < 24 := by omega
  refine ⟨_, _, readOnOff_inside _ heven, readOnOff_inside _ hodd, fun j hj => ?_, fun j hj => ?_, fun j hj2 hj => ?_⟩
  · refine (encodeTile_bit s.tile heven hj).trans ?_
    rw [if_pos (by omega), ledOfBit, show 2 * k / 2 * 10 + 2 * k % 2 * 8 + j = 10 * k + j by omega]
  · refine (encodeTile_bit s.tile hodd (by omega)).trans ?_
    rw [if_pos (.inr hj), ledOfBit, show (2 * k + 1) / 2 * 10 + (2 * k + 1) % 2 * 8 + j = 10 * k + 8 + j by omega]
  · exact (encodeTile_bit s.tile hodd hj).trans (if_neg (by omega))

/-- Settles O32: the slots of pixels and the filler slots of `encodeTile_slot`. -/
theorem encodePwmInClosedForm : Obligations.EncodePwmInClosedForm := fun s =>
  ⟨_, exec_encode s, fun _ => encodeTile_slot_pixel s.tile, fun _ => encodeTile_slot_filler s.tile, rfl⟩

/-- Settles O33: `ENCODE` writes `encodeTile` of the tile, which it does not change, and by
`foldl_packPixel_of_complete` any order of all the pixels gives that. -/
theorem encodeIsPureAndOrderFree : Obligations.EncodeIsPureAndOrderFree := by
  refine ⟨fun s s' htile => ?_, fun s => ⟨_, _, exec_encode s, exec_encode _, rfl⟩, fun tile order hperm => ?_⟩
  · refine ⟨_, _, exec_encode s, exec_encode s', ?_, ?_⟩
    · simp [htile]
    · simp [htile]
  · exact foldl_packPixel_of_complete tile fun p => hperm.mem_iff.mpr (mem_tilePixels p)

/-- Settles O34: every mapped bit is off, or every mapped bit is on. -/
theorem encodeOfAllOffAndAllOnTiles : Obligations.EncodeOfAllOffAndAllOnTiles := by
  refine ⟨fun s hoff => ⟨_, exec_encode s, fun i hi => ?_, fun i hi => ?_⟩,
    fun s hon => ⟨_, exec_encode s, fun k hk => ⟨?_, ?_⟩, fun _ => encodeTile_slot_pixel s.tile,
      fun _ => encodeTile_slot_filler s.tile⟩⟩
  · exact encodeTile_byte_of_uniform s.tile (fun _ => lit_eq_false hoff) hi fun j _ => by simp
  · refine (encodeTile_slot s.tile hi).trans ?_
    split
    · next hn => exact hoff _ (pixel_of_led hn).1 _ (pixel_of_led hn).2.1
    · rfl
  · have hmask : ∀ j < 8, (0xFF#8).getLsbD j = true := by decide
    exact encodeTile_byte_of_uniform s.tile (fun _ => lit_eq_true hon) (by omega) fun j hj => by
      rw [hmask j hj, if_pos (by omega)]
  · have hmask : ∀ j < 8, (0x03#8).getLsbD j = decide (j < 2) := by decide
    exact encodeTile_byte_of_uniform s.tile (fun _ => lit_eq_true hon) (by omega) fun j hj => by
      rw [hmask j hj]; simp

/-- Settles O52: each register's value is widened to 32 bits, which `ofNat` of its number says too. -/
theorem rdcrReadsTheControlRegisters : Obligations.RdcrReadsTheControlRegisters := by
  refine ⟨fun _ => decode_wordI_rdcr, fun s => ?_⟩
  simp only [BitVec.ofNat_toNat]
  exact ⟨exec_rdcr_of_register rfl, exec_rdcr_of_register rfl, exec_rdcr_of_register rfl, exec_rdcr_of_register rfl,
    exec_rdcr_of_register rfl, fun n hn => exec_rdcr_of_no_register (readControl_reserved s hn)⟩

/-- Settles O56: the pixel that `TPIX` writes is the byte of its operand. -/
theorem pixelWrittenIsReadBack : Obligations.PixelWrittenIsReadBack := by
  intro x y v s hx hy
  obtain ⟨u, hwritten, hpixels⟩ := writePixel_inside s.tile (BitVec.ofNat 8 v) hx hy
  have hpixel : readPixel u x y = some (BitVec.ofNat 8 v) := (hpixels x y).trans (if_pos ⟨rfl, rfl⟩)
  refine ⟨_, _, exec_tpix_of_written hwritten, exec_rdtp_of_pixel hpixel, ?_⟩
  rw [respond_responses, BitVec.toNat_ofNat]

/-- Settles O39: `loadSlice_eq_canvasSlice`, since every tile of a canvas set up in full is readable. -/
theorem loadtOfAReadyCanvasIsTheSlice : Obligations.LoadtOfAReadyCanvasIsTheSlice := by
  intro t s hready ht
  have hload := loadSlice_eq_canvasSlice (tilesReady_of_canvasReady hready) ht
  exact ⟨_, exec_loadt_of_loadSlice hready.bound ht hload,
    fun x hx y hy => readPixel_canvasSlice s t hx hy, rfl⟩

/-- Settles O42: the events are the tile's calls, each answered `ok`. -/
theorem emitCostsThePreWritesAnd179SlotWrites : Obligations.EmitCostsThePreWritesAnd179SlotWrites := by
  rintro t b s pre rfl hok
  have hemit := emitTile_all_ok { s with tileIx := BitVec.ofNat 16 t } (BitVec.ofNat 16 t) b fun m hm =>
    hok m (by rwa [tileSends_length] at hm)
  refine ⟨_, answeredOk (tileSends s (BitVec.ofNat 16 t) b s.onoff s.pwm), exec_emit t b s, by rw [hemit]; rfl, ?_, ?_⟩
  · exact (filter_answeredOk isRegCall _).trans (tileSends_regCalls ..)
  · exact (filter_answeredOk (fun c => !isRegCall c) _).trans (tileSends_slotCalls ..)

/-- Settles O44: there is no tile, so the loop has no turn. -/
theorem renderOfNoTilesSendsNothing : Obligations.RenderOfNoTilesSendsNothing := by
  intro b clip s hbound hwidth
  have hnone : tileCount s.canvasW = 0 := Nat.div_eq_of_lt hwidth
  rw [exec_render_bound b clip hbound, hnone]
  rfl

/-- Settles O45: tile 0 cannot be loaded, so the first turn of the loop ends it. -/
theorem renderOfATallCanvasFaultsAtOnce : Obligations.RenderOfATallCanvasFaultsAtOnce := by
  intro b clip s hbound hwidth htall
  have hsome : 0 < tileCount s.canvasW := Nat.div_pos hwidth (by decide)
  rw [exec_render_bound b clip hbound,
    renderTiles_ends hsome rfl (renderTile_unreadable (loadSlice_eq_none (.inl htall)))]
  rfl

/-- Settles O46: `renderTiles_range` with all the tiles; the buffers hold the last one. -/
theorem renderSendsEveryTileInOrder : Obligations.RenderSendsEveryTileInOrder := by
  refine fun b clip s => ⟨decode_wordB_render b, fun hready hwidth hok => ?_⟩
  rw [exec_render_bound b clip hready.bound, tileCount,
    renderTiles_range (tilesReady_of_canvasReady hready) hok, finish_done, State.rendered, State.sent,
    answeredOk_length]
  obtain ⟨n, hn⟩ : ∃ n, s.canvasW.toNat / 24 = n + 1 := ⟨s.canvasW.toNat / 24 - 1, by omega⟩
  rw [hn]
  rfl

/-- Settles O47: the tiles before `k` are sent in full, and `renderTile_first_fail` is tile `k`'s turn. -/
theorem renderStopsAtTheFirstFailingCall : Obligations.RenderStopsAtTheFirstFailingCall := by
  intro b clip s k m hbound hquiet hheight hk hinside hm hok hfail
  have hready : TilesReady s (k + 1) := ⟨hquiet, hheight, fun t ht => hinside t (by omega)⟩
  have hbefore := renderTiles_range (b := b) (cmd := encode (.render b clip)) (hready.mono k.le_succ) fun j hj =>
    hok j (by omega)
  have hturn := renderTile_first_fail (cmd := encode (.render b clip))
    (loadSlice_eq_canvasSlice hready k.lt_succ_self) hm hok hfail
  have hshort : k % 2 ^ 16 = k := Nat.mod_eq_of_lt (by have := s.canvasW.isLt; omega)
  rw [exec_render_bound b clip hbound, tileCount, renderTiles_ends hk hbefore hturn, finish_ended, hshort, State.sent,
    List.length_append, answeredOk_length, eventsUpTo_length hm, eventsUpTo, ← List.append_assoc, ← List.append_assoc]
  rfl

/-- Settles O48: the tiles before `k` are sent in full, and tile `k` cannot be loaded. -/
theorem renderStopsAtTheFirstUnreadableTile : Obligations.RenderStopsAtTheFirstUnreadableTile := by
  intro b clip s k hbound hquiet hheight hk hinside ⟨x, hx, y, hy, hout⟩ hok
  have hbefore := renderTiles_range (b := b) (cmd := encode (.render b clip)) ⟨hquiet, hheight, hinside⟩ hok
  have hnone : loadSlice (s.rendered b k) k = none :=
    (loadSlice_rendered s b k k).trans (loadSlice_eq_none (.inr ⟨x, hx, y, by omega, hy, hout⟩))
  rw [exec_render_bound b clip hbound, tileCount, renderTiles_ends hk hbefore (renderTile_unreadable hnone),
    finish_ended, State.rendered, State.sent, answeredOk_length]
  cases k with
  | zero => rfl
  | succ k => rfl

/-- Settles O49: both lead to `State.rendered` of all the tiles, which keeps whatever responses there are. -/
theorem renderIsLoadEncodeEmitTileByTile : Obligations.RenderIsLoadEncodeEmitTileByTile := by
  intro b clip s hready hok
  have htiles := tilesReady_of_canvasReady hready
  obtain ⟨rs, hrtiles⟩ := tileByTile_range hready.bound le_rfl htiles hok
  refine ⟨_, (s.withResponses rs).rendered b (s.canvasW.toNat / 24), exec_render_bound b clip hready.bound, ?_, ?_⟩
  · rw [← List.append_nil (List.range _)]
    exact hrtiles []
  · rw [tileCount, renderTiles_range htiles hok, finish_done]
    cases s.canvasW.toNat / 24 <;> rfl

end Sys2Proof.Proofs.Other
end
